-- ==== Sys2Proof/Word.lean ====
section
/-! DEFINITION. The word types of the block: bytes, 16-bit payload addresses, 80-bit command words
(spec/30_encoding.md R55, spec/20_memory.md R40). -/

namespace Sys2Proof

/-- A byte of payload memory or of the wire, 8 bits (20 R40, 44 R113). -/
abbrev Byte := BitVec 8

/-- A payload memory address, `AW = 16` bits (00 R6, 20 R40). -/
abbrev Addr := BitVec 16

/-- A command word, 80 bits (30 R55). -/
abbrev CmdWord := BitVec 80

end Sys2Proof
end

