-- ==== Sys2Proof/Config.lean ====
section
/-! DEFINITION. What an implementation fixes (spec/00_scope.md R6) and the free values of the spec:
values no rule gives, each an opaque constant applied to a counter of the state, so that no proof can
know one. -/

namespace Sys2Proof

/-- The kinds of timer (00 R6): 8-bit with the 5-entry table, 8-bit with the 7-entry table, 16-bit. -/
inductive TimerKind where
  | t8_5
  | t8_7
  | t16
  deriving DecidableEq, Repr

/-- The two channels of a timer, A encoded 0 and B encoded 1 (00 section 7, 30 R55). -/
inductive Channel where
  | A
  | B
  deriving DecidableEq, Repr

/-- The default `NT = 3`, `KIND = [T8_5, T16, T8_7]` (00 R6, decision D3). PRESUMED by the spec from the
common ATmega parts; only `State.reset` uses it, every other definition takes the kinds from the
state (notes/assumptions/4.md). -/
def Config.defaultKinds : List TimerKind := [.t8_5, .t16, .t8_7]

/-- `PINMAP[t][ch]`, the physical pin of a channel: OPEN, a platform constant no rule reads
(00 R6, 10 R19). -/
opaque Config.pinMap : Nat → Channel → Nat

/-- `any_3` for `CS[t]` when `frequency = 0` (40 R83): a free value, one per draw. -/
opaque Config.freeClockSelect : Nat → BitVec 3

/-- `any_4` for `WGM[t]` when `frequency = 0` (40 R83): a free value, one per draw. -/
opaque Config.freeWaveform : Nat → BitVec 4

/-- `any_8` for `OCR[t][A]` when `frequency = 0` in `PWM.EXACT` (41 R96): a free value, one per draw. -/
opaque Config.freeTop : Nat → BitVec 8

/-- `ACCEPT`, the transport's answer to an attempt for which the state lists none (00 R6, 44 R113):
a free value, one per draw. -/
opaque Config.freeAccept : Nat → Bool

end Sys2Proof
end

