-- ==== Sys2Proof/Syntax.lean ====
section
/-! DEFINITION. The nine commands of the block (spec/30_encoding.md R58), one constructor per row of
spec/opcode_table.json, with the operands of R57, and the host-side pseudo-commands of R67. -/

namespace Sys2Proof

/-- A command with its operands (30 R57). `t` is the timer index of the word's 3-bit field, checked by
`Instr.wellFormed`; every other operand has its field's width. -/
inductive Instr where
  /-- `PWM.INIT t, ch` (43 R105). -/
  | pwmInit (t : Nat) (ch : Channel)
  /-- `PWM.HINT8 t, ch, frequency, cpu_frequency` (40 R79). -/
  | pwmHint8 (t : Nat) (ch : Channel) (frequency cpuFrequency : BitVec 32)
  /-- `PWM.HINT9 t, ch, frequency, cpu_frequency` (40 R80). -/
  | pwmHint9 (t : Nat) (ch : Channel) (frequency cpuFrequency : BitVec 32)
  /-- `PWM.HINT10 t, ch, frequency, cpu_frequency` (40 R81). -/
  | pwmHint10 (t : Nat) (ch : Channel) (frequency cpuFrequency : BitVec 32)
  /-- `PWM.EXACT t, ch, frequency, cpu_frequency` (41 R90). -/
  | pwmExact (t : Nat) (ch : Channel) (frequency cpuFrequency : BitVec 32)
  /-- `PWM.DUTY t, ch, value` (42 R100). -/
  | pwmDuty (t : Nat) (ch : Channel) (value : BitVec 32)
  /-- `PWM.CLOSE t, ch` (43 R107). -/
  | pwmClose (t : Nat) (ch : Channel)
  /-- `MSG.INIT ptr, len` (44 R117). -/
  | msgInit (ptr len : BitVec 16)
  /-- `MSG.STEP` (44 R118). -/
  | msgStep
  deriving DecidableEq, Repr

/-- The pseudo-command `PWM.HINT t, ch, f, cpu` (30 R67): a host-side abbreviation of `PWM.HINT8`. -/
def Instr.pseudoPwmHint (t : Nat) (ch : Channel) (frequency cpuFrequency : BitVec 32) : Instr :=
  .pwmHint8 t ch frequency cpuFrequency

/-- The pseudo-command `MSG.SEND ptr, len` (30 R67) as the host issues it: one `MSG.INIT`, then `polls`
times `MSG.STEP`. How often to poll is the host's (44 R127), so it is an argument. -/
def Instr.pseudoMsgSend (ptr len : BitVec 16) (polls : Nat) : List Instr :=
  .msgInit ptr len :: List.replicate polls .msgStep

end Sys2Proof
end

