-- ==== Sys2Proof/WellFormed.lean ====
section
/-! DEFINITION. Which commands have a word (spec/30_encoding.md R55, R57): the timer index fits its
3-bit field. The other operands fit by their types. -/

namespace Sys2Proof

/-- The timer index of a `PWM.*` command, 0 to 7 (30 R55). -/
def Instr.timerFits (t : Nat) : Bool := decide (t < 8)

/-- A command is well formed when every operand fits its field (30 R55, R57). -/
def Instr.wellFormed : Instr → Bool
  | .pwmInit t _ => timerFits t
  | .pwmHint8 t _ _ _ => timerFits t
  | .pwmHint9 t _ _ _ => timerFits t
  | .pwmHint10 t _ _ _ => timerFits t
  | .pwmExact t _ _ _ => timerFits t
  | .pwmDuty t _ _ => timerFits t
  | .pwmClose t _ => timerFits t
  | .msgInit _ _ => true
  | .msgStep => true

end Sys2Proof
end

