-- ==== Sys2Proof/Decode.lean ====
section
/-! DEFINITION. From an 80-bit command word to a command or a named rejection, total on every word
(spec/30_encoding.md R55, R57, R58, R59, R64), the encoder written from the same table, and the
written form of R66. -/

namespace Sys2Proof

/-- Why a word is no command (30 R64). Both reasons have the one outcome `illegal()` of case I1. -/
inductive DecodeReject where
  /-- The `op` byte is none of 0x01 to 0x07, 0x10, 0x11. -/
  | unknownOp
  /-- A must-be-zero field of the command is not zero. -/
  | mustBeZero
  deriving DecidableEq, Repr

/-! ### Fields of the format `CMD80` (30 R55) -/

/-- `op`, bits 79:72. -/
def fieldOp (w : CmdWord) : BitVec 8 := w.extractLsb' 72 8
/-- `rsv`, bits 71:68. -/
def fieldRsv (w : CmdWord) : BitVec 4 := w.extractLsb' 68 4
/-- `t`, bits 67:65. -/
def fieldT (w : CmdWord) : BitVec 3 := w.extractLsb' 65 3
/-- `ch`, bit 64. -/
def fieldCh (w : CmdWord) : BitVec 1 := w.extractLsb' 64 1
/-- `sel`, bits 71:64: `rsv`, `t` and `ch` together. -/
def fieldSel (w : CmdWord) : BitVec 8 := w.extractLsb' 64 8
/-- `a`, bits 63:32. -/
def fieldA (w : CmdWord) : BitVec 32 := w.extractLsb' 32 32
/-- `b`, bits 31:0. -/
def fieldB (w : CmdWord) : BitVec 32 := w.extractLsb' 0 32
/-- `a[31:16]`, must be zero in `MSG.INIT`. -/
def fieldAHi (w : CmdWord) : BitVec 16 := w.extractLsb' 48 16
/-- `ptr = a[15:0]` of `MSG.INIT`. -/
def fieldPtr (w : CmdWord) : BitVec 16 := w.extractLsb' 32 16
/-- `b[31:16]`, must be zero in `MSG.INIT`. -/
def fieldBHi (w : CmdWord) : BitVec 16 := w.extractLsb' 16 16
/-- `len = b[15:0]` of `MSG.INIT`. -/
def fieldLen (w : CmdWord) : BitVec 16 := w.extractLsb' 0 16

/-- The channel a `ch` bit names: 0 is A, 1 is B (30 R55). -/
def channelOf (c : BitVec 1) : Channel := if c = 0 then .A else .B

/-- The `ch` bit of a channel. -/
def channelBit : Channel → BitVec 1
  | .A => 0
  | .B => 1

/-- The command `i` when the must-be-zero test passes, else the rejection (30 R59, R64). -/
def whenZero (ok : Bool) (i : Instr) : Except DecodeReject Instr :=
  if ok then .ok i else .error .mustBeZero

/-- Decode a command word by the opcode map (30 R58): the `op` byte chooses the row, then the row's
must-be-zero fields are tested. -/
def decode (w : CmdWord) : Except DecodeReject Instr :=
  let t := (fieldT w).toNat
  let ch := channelOf (fieldCh w)
  let a := fieldA w
  let b := fieldB w
  let rsv0 := fieldRsv w == 0
  match (fieldOp w).toNat with
  | 0x01 => whenZero (rsv0 && a == 0 && b == 0) (.pwmInit t ch)
  | 0x02 => whenZero rsv0 (.pwmHint8 t ch a b)
  | 0x03 => whenZero rsv0 (.pwmHint9 t ch a b)
  | 0x04 => whenZero rsv0 (.pwmHint10 t ch a b)
  | 0x05 => whenZero rsv0 (.pwmExact t ch a b)
  | 0x06 => whenZero (rsv0 && b == 0) (.pwmDuty t ch a)
  | 0x07 => whenZero (rsv0 && a == 0 && b == 0) (.pwmClose t ch)
  | 0x10 => whenZero (fieldSel w == 0 && fieldAHi w == 0 && fieldBHi w == 0)
      (.msgInit (fieldPtr w) (fieldLen w))
  | 0x11 => whenZero (fieldSel w == 0 && a == 0 && b == 0) .msgStep
  | _ => .error .unknownOp

/-! ### The encoder -/

/-- A word in the grouping `op sel a b` (30 R55). -/
def cmdWord (op sel : BitVec 8) (a b : BitVec 32) : CmdWord := op ++ sel ++ a ++ b

/-- `sel` of a `PWM.*` command: `rsv = 0`, the timer index, the channel (30 R55). -/
def selOf (t : Nat) (ch : Channel) : BitVec 8 := (0 : BitVec 4) ++ BitVec.ofNat 3 t ++ channelBit ch

/-- The word of a well-formed command (30 R57, R58). -/
def encode : Instr → CmdWord
  | .pwmInit t ch => cmdWord 0x01 (selOf t ch) 0 0
  | .pwmHint8 t ch f c => cmdWord 0x02 (selOf t ch) f c
  | .pwmHint9 t ch f c => cmdWord 0x03 (selOf t ch) f c
  | .pwmHint10 t ch f c => cmdWord 0x04 (selOf t ch) f c
  | .pwmExact t ch f c => cmdWord 0x05 (selOf t ch) f c
  | .pwmDuty t ch v => cmdWord 0x06 (selOf t ch) v 0
  | .pwmClose t ch => cmdWord 0x07 (selOf t ch) 0 0
  | .msgInit ptr len => cmdWord 0x10 0 ((0 : BitVec 16) ++ ptr) ((0 : BitVec 16) ++ len)
  | .msgStep => cmdWord 0x11 0 0 0

/-- What the decoder makes of a table row's bits. A command word is one 80-bit value (30 R55), so the
table's bit `i` is the word's bit `i`; a row longer than 80 bits would be no command word (30 R65). -/
def wordOfTable (nbits w : Nat) : CmdWord := BitVec.ofNat 80 (w % 2 ^ nbits)

/-- The command the decoder reads from an opcode-table word of `nbits` bits. -/
def decodeTableWord (nbits w : Nat) : Option Instr :=
  if nbits ≤ 80 then (decode (wordOfTable nbits w)).toOption else none

/-! ### The written form (30 R66) -/

/-- The letter of a channel (30 R66). -/
def channelText : Channel → String
  | .A => "A"
  | .B => "B"

/-- Operands separated by a comma and a space. -/
def operandsText (mnemonic : String) (ops : List String) : String :=
  mnemonic ++ " " ++ ", ".intercalate ops

/-- A command as the spec writes it, numbers in decimal (30 R66). -/
def Instr.written : Instr → String
  | .pwmInit t ch => operandsText "PWM.INIT" [toString t, channelText ch]
  | .pwmHint8 t ch f c =>
      operandsText "PWM.HINT8" [toString t, channelText ch, toString f.toNat, toString c.toNat]
  | .pwmHint9 t ch f c =>
      operandsText "PWM.HINT9" [toString t, channelText ch, toString f.toNat, toString c.toNat]
  | .pwmHint10 t ch f c =>
      operandsText "PWM.HINT10" [toString t, channelText ch, toString f.toNat, toString c.toNat]
  | .pwmExact t ch f c =>
      operandsText "PWM.EXACT" [toString t, channelText ch, toString f.toNat, toString c.toNat]
  | .pwmDuty t ch v => operandsText "PWM.DUTY" [toString t, channelText ch, toString v.toNat]
  | .pwmClose t ch => operandsText "PWM.CLOSE" [toString t, channelText ch]
  | .msgInit ptr len => operandsText "MSG.INIT" [toString ptr.toNat, toString len.toNat]
  | .msgStep => "MSG.STEP"

end Sys2Proof
end

