-- ==== Sys2Proof/Machine/Memory.lean ====
section
/-! DEFINITION. Payload memory (spec/20_memory.md R40 to R43): a list of address and byte pairs in one
canonical form, read totally at every 16-bit address. The block only reads it; the host writes it. -/

namespace Sys2Proof.Machine

/-- Payload memory as data: the listed bytes (20 R40). -/
abbrev Memory := List Host.Cell

/-- What an address that nothing has written reads as. The spec leaves the content of payload memory
open (00 R6). DESIGN CHOICE 0x00 (notes/assumptions/5.md). -/
def Memory.unlisted : Byte := 0

/-- Addresses strictly rising, all above `low`, below `2^16`, and no byte equal to `unlisted`. -/
def Memory.wfFrom : Nat → Memory → Bool
  | _, [] => true
  | low, (a, b) :: rest =>
      decide (low ≤ a) && decide (a < 65536) && !(b == unlisted) && wfFrom (a + 1) rest

/-- The canonical form of payload memory: equal contents are equal lists. -/
def Memory.wf (m : Memory) : Bool := wfFrom 0 m

/-- The byte listed at an address, if any. -/
def Memory.find : Memory → Nat → Option Byte
  | [], _ => none
  | (a, b) :: rest, k => if a = k then some b else find rest k

/-- `MemRead(addr, 1)` (20 R42): total, no side effect. -/
def Memory.read (m : Memory) (addr : Addr) : Byte := (m.find addr.toNat).getD unlisted

/-- The list with the byte at `k` replaced, added in order, or, for `unlisted`, removed. -/
def Memory.put : Memory → Nat → Byte → Memory
  | [], k, v => if v = unlisted then [] else [(k, v)]
  | (a, b) :: rest, k, v =>
      if a < k then (a, b) :: put rest k v
      else
        let tail := if a = k then rest else (a, b) :: rest
        if v = unlisted then tail else (k, v) :: tail

/-- A host write of one byte to payload memory (00 R5, 20 R53). -/
def Memory.write (m : Memory) (addr : Addr) (v : Byte) : Memory := m.put addr.toNat v

end Sys2Proof.Machine
end

