-- ==== Sys2Proof/Machine/State.lean ====
section
/-! DEFINITION. The state of the block, all of it plain data (spec/10_state.md R31, spec/60_exceptions.md
R139), the reasons a step can stop, and the state after reset (spec/70_reset_and_hazards.md R146). -/

namespace Sys2Proof.Machine

/-- The registers of one channel of a timer (10 R17, R18, R19, R22). -/
structure Chan where
  /-- `COM[t][ch]`, compare-output mode (10 R17). -/
  com : BitVec 2
  /-- `OCR[t][ch]`, compare register (10 R18), in 16 bits; the bits above `CW(KIND[t])` are zero
  (notes/assumptions/13.md). -/
  ocr : BitVec 16
  /-- `DDR[t][ch]`, pin output enable (10 R19). -/
  ddr : Bool
  /-- `BOUND[t][ch]` (10 R22). -/
  bound : Bool
  deriving DecidableEq, Repr

/-- One timer: its kind (00 R6) and its registers (10 R14). -/
structure Timer where
  /-- `KIND[t]`, fixed at build time (70 R149). -/
  kind : TimerKind
  /-- `CS[t]`, clock-select (10 R15). -/
  cs : BitVec 3
  /-- `WGM[t]`, waveform mode, as its port pattern (10 R16). -/
  wgm : BitVec 4
  /-- The registers of channel A. -/
  chanA : Chan
  /-- The registers of channel B. -/
  chanB : Chan
  deriving DecidableEq, Repr

/-- `MSTATE`, the protocol state (10 R24). -/
inductive MState where
  | idle
  | header
  | data
  | ckh
  | ckl
  | endMark
  | sent
  deriving DecidableEq, Repr

/-- The message context (10 R24 to R27). -/
structure MsgContext where
  /-- `MSTATE` (10 R24). -/
  mstate : MState
  /-- `MPTR`, address of the first payload byte (10 R25). -/
  mptr : BitVec 16
  /-- `MLEN`, payload length (10 R25). -/
  mlen : BitVec 16
  /-- `MCUR`, payload bytes accepted so far (10 R26). -/
  mcur : BitVec 16
  /-- `MCK`, checksum (10 R27). -/
  mck : BitVec 8
  deriving DecidableEq, Repr

/-- What the outside does to the block between commands (00 R5, 60 R139). -/
inductive HostEvent where
  /-- The host presents a command word on the command port (30 R56). -/
  | command (w : CmdWord)
  /-- The host writes a byte of payload memory (00 R5, 20 R53). -/
  | memWrite (addr : Addr) (b : Byte)
  /-- The platform asserts the reset input (70 R145). -/
  | reset
  deriving DecidableEq, Repr

/-- One transport write attempt `TryWrite(byte)` and the transport's answer (44 R113). -/
structure TxAttempt where
  byte : Byte
  accepted : Bool
  deriving DecidableEq, Repr

/-- The two-bit response of a command (30 R62). -/
structure Response where
  illegal : Bool
  done : Bool
  deriving DecidableEq, Repr

/-- The whole state. The last seven fields are outside the block or the model's own:
payload memory (20 R40), the events the outside will bring, the transport's coming answers, the
record of attempts, the response port, and the two counters of the free values. -/
structure State where
  /-- The timers `0 .. NT-1`; `NT` is the length (00 R6, 10 R14). -/
  timers : List Timer
  /-- The one message context. -/
  msg : MsgContext
  /-- `MEM`, payload memory, outside the block (20 R40). -/
  mem : Memory
  /-- The events the outside will bring, next first (notes/assumptions/1.md). -/
  inputs : List HostEvent
  /-- The transport's answers to the next attempts, next first (notes/assumptions/6.md). -/
  answers : List Bool
  /-- The attempts made, oldest first (notes/assumptions/10.md). -/
  attempts : List TxAttempt
  /-- The response port after the last command (30 R62, notes/assumptions/9.md). -/
  response : Option Response
  /-- How many draws of register values were made (notes/assumptions/8.md). -/
  pwmDraws : Nat
  /-- How many draws of transport answers were made (notes/assumptions/8.md). -/
  acceptDraws : Nat
  deriving DecidableEq, Repr

/-- The block raises no exception and no rule stops it (60 R130, R131): there is no fault, so nobody
raises one. Safe: a reason that cannot be given hides no behaviour (notes/assumptions/17.md). -/
inductive Fault where
  deriving DecidableEq, Repr

/-- Why the model gives an instruction no meaning. -/
inductive Refusal where
  /-- Raised by an arm of `exec` whose instruction has no meaning yet; no arm is such an arm. Safe: a
  refusal proves nothing about the hardware. -/
  | notModelled (mnemonic : String)
  deriving DecidableEq, Repr

/-- The registers of a channel after reset (70 R146). -/
def Chan.reset : Chan where
  com := 0
  ocr := 0
  ddr := false
  bound := false

/-- The registers of a timer after reset (70 R146); its kind is no register and stays. -/
def Timer.reset (kind : TimerKind) : Timer where
  kind := kind
  cs := 0
  wgm := 0
  chanA := Chan.reset
  chanB := Chan.reset

/-- The message context after reset (70 R146). -/
def MsgContext.reset : MsgContext where
  mstate := .idle
  mptr := 0
  mlen := 0
  mcur := 0
  mck := 0

/-- The state at power-on of a block whose timers are of the given kinds (70 R145, R146): payload
memory lists nothing, nothing is on the wire, and the outside has brought nothing yet. -/
def State.resetWith (kinds : List TimerKind) : State where
  timers := kinds.map Timer.reset
  msg := MsgContext.reset
  mem := []
  inputs := []
  answers := []
  attempts := []
  response := none
  pwmDraws := 0
  acceptDraws := 0

/-- The state right after reset, with the default kinds (00 R6, 70 R146). -/
def State.reset : State := State.resetWith Config.defaultKinds

end Sys2Proof.Machine
end

