-- ==== Sys2Proof/Machine/Flags.lean ====
section
/-! DEFINITION. The block has no flags (spec/10_state.md R13). What a command reports is its two-bit
response `{illegal, done}` (spec/30_encoding.md R62): `respond` and `illegal` are the two ways a command
ends (spec/00_scope.md section 6). -/

namespace Sys2Proof.Machine

/-- What a step answers. -/
abbrev Result := Host.Outcome State Fault Refusal

/-- `respond(done)`: the command ends with the response `{illegal=0, done=done}`. -/
def respond (done : Bool) (s : State) : Result :=
  .next { s with response := some { illegal := false, done := done } }

/-- `illegal()` (30 R63): no register, memory or transport effect, response `{illegal=1, done=0}`.
It is no exception: nothing is saved and the next command is taken normally (60 R131). -/
def illegal (s : State) : Result :=
  .next { s with response := some { illegal := true, done := false } }

end Sys2Proof.Machine
end

