-- ==== Sys2Proof/Machine/Operands.lean ====
section
/-! DEFINITION. The parameters that depend on a timer's kind and the value forms of the registers:
divisor tables, compare-register width, waveform-mode and compare-output patterns
(spec/00_scope.md R6, spec/10_state.md R15 to R18, R24, spec/42_pwm_duty.md R101). -/

namespace Sys2Proof.Machine

/-- `TABLE(kind)` (00 R6). The table of a 16-bit timer is decision D4, from general knowledge
(notes/assumptions/15.md). -/
def divisorTable : TimerKind → List Nat
  | .t8_5 => [1, 8, 64, 256, 1024]
  | .t8_7 => [1, 8, 32, 64, 128, 256, 1024]
  | .t16 => [1, 8, 64, 256, 1024]

/-- `N(kind)`, the number of table entries (00 R6). -/
def tableSize (kind : TimerKind) : Nat := (divisorTable kind).length

/-- `T[k]`; every rule reads an index below `n`, where the table has an entry. -/
def tableEntry (table : List Nat) (k : Nat) : Nat := table.getD k 0

/-- `CW(kind)`, the width of a compare register in bits (00 R6). -/
def compareWidth : TimerKind → Nat
  | .t8_5 => 8
  | .t8_7 => 8
  | .t16 => 16

/-- `trunc_CW(v)` in the 16 bits that hold a compare register (42 R101). -/
def truncCompare (kind : TimerKind) (v : Nat) : BitVec 16 :=
  BitVec.ofNat 16 (v % 2 ^ compareWidth kind)

/-- The two modes of the mode arbiter: fast-PWM and phase-correct (40 R76). -/
inductive PwmMode where
  | fast
  | pc
  deriving DecidableEq, Repr

/-- `W`, the free-running counter width of a hint command (40 R75). -/
inductive CounterWidth where
  | w8
  | w9
  | w10
  deriving DecidableEq, Repr

/-- The width in bits. -/
def CounterWidth.bits : CounterWidth → Nat
  | .w8 => 8
  | .w9 => 9
  | .w10 => 10

/-- The fixed top of a free-running submode: 0xFF, 0x1FF, 0x3FF (10 R16). -/
def CounterWidth.freeTop (w : CounterWidth) : Nat := 2 ^ w.bits - 1

/-- The waveform modes by name (10 R16): `NORMAL`, `FAST_FREE<W>` and `PC_FREE<W>`, `FAST_OCRA` and
`PC_OCRA`. -/
inductive WaveMode where
  | normal
  | free (m : PwmMode) (w : CounterWidth)
  | ocra (m : PwmMode)
  deriving DecidableEq, Repr

/-- The patterns of an 8-bit timer; 9- and 10-bit submodes do not exist there (10 R16). -/
def wavePattern8 : WaveMode → Option (BitVec 4)
  | .normal => some 0b0000
  | .free .pc .w8 => some 0b0001
  | .free .fast .w8 => some 0b0011
  | .ocra .pc => some 0b0101
  | .ocra .fast => some 0b0111
  | .free _ .w9 => none
  | .free _ .w10 => none

/-- The patterns of a 16-bit timer (10 R16). -/
def wavePattern16 : WaveMode → Option (BitVec 4)
  | .normal => some 0b0000
  | .free .pc .w8 => some 0b0001
  | .free .pc .w9 => some 0b0010
  | .free .pc .w10 => some 0b0011
  | .free .fast .w8 => some 0b0101
  | .free .fast .w9 => some 0b0110
  | .free .fast .w10 => some 0b0111
  | .ocra .pc => some 0b1011
  | .ocra .fast => some 0b1111

/-- The pattern of a waveform mode on a timer of a kind (10 R16). PRESUMED by the spec from the AVR
timers, decision D5 (notes/assumptions/12.md). -/
def wavePattern : TimerKind → WaveMode → Option (BitVec 4)
  | .t8_5, m => wavePattern8 m
  | .t8_7, m => wavePattern8 m
  | .t16, m => wavePattern16 m

/-- Every waveform mode, in the order of the table of 10 R16. -/
def WaveMode.all : List WaveMode :=
  [.normal, .free .pc .w8, .free .pc .w9, .free .pc .w10,
   .free .fast .w8, .free .fast .w9, .free .fast .w10, .ocra .pc, .ocra .fast]

/-- The mode a pattern at the port names on a timer of a kind; every other pattern has no meaning in
the source (10 R16, 93 U6). -/
def waveName (kind : TimerKind) (p : BitVec 4) : Option WaveMode :=
  WaveMode.all.find? fun m => decide (wavePattern kind m = some p)

/-- The prescaler divisor a clock-select value selects; 0 disables the clock, values above the table
have no meaning (10 R15). -/
def clockDivisor (kind : TimerKind) (cs : BitVec 3) : Option Nat :=
  if cs = 0 then none else (divisorTable kind)[cs.toNat - 1]?

/-- The compare-output modes, in the source's order (10 R17). -/
inductive ComMode where
  | normal
  | toggle
  | clear
  | set
  deriving DecidableEq, Repr

/-- The patterns follow that order (10 R17, decision D5, notes/assumptions/12.md). -/
def ComMode.pattern : ComMode → BitVec 2
  | .normal => 0b00
  | .toggle => 0b01
  | .clear => 0b10
  | .set => 0b11

/-- The 3-bit value of `MSTATE`; 7 is never produced (10 R24, decision D16). -/
def MState.code : MState → BitVec 3
  | .idle => 0
  | .header => 1
  | .data => 2
  | .ckh => 3
  | .ckl => 4
  | .endMark => 5
  | .sent => 6

end Sys2Proof.Machine
end

