-- ==== Sys2Proof/Machine/Ops.lean ====
section
/-! DEFINITION. The named operations every meaning is built from: registers of a timer, the message
context, transport attempts, draws, the legality checks that come before any effect
(spec/30_encoding.md R63, spec/60_exceptions.md R133), and what the outside does between commands.
Taking an exception and returning from one do not exist on this block: it raises none and has no entry
and no return (spec/60_exceptions.md R130, R134), so no operation stands here for them. -/

namespace Sys2Proof.Machine

/-! ### Registers of one timer (10 R14 to R19, R22) -/

/-- The registers of a channel. -/
def Timer.chan (tm : Timer) : Channel → Chan
  | .A => tm.chanA
  | .B => tm.chanB

/-- The timer with the registers of one channel replaced. -/
def Timer.setChan (tm : Timer) (ch : Channel) (c : Chan) : Timer :=
  match ch with
  | .A => { tm with chanA := c }
  | .B => { tm with chanB := c }

/-- `CS[t] <- v`; every rule that writes a number writes at most 7 (40 R88). -/
def Timer.writeCs (tm : Timer) (v : Nat) : Timer := { tm with cs := BitVec.ofNat 3 v }

/-- `WGM[t] <- mode`, as the pattern of the timer's kind (10 R16). A mode the kind does not have is
written by no rule; the register would keep its value (notes/assumptions/24.md). -/
def Timer.writeWave (tm : Timer) (m : WaveMode) : Timer :=
  match wavePattern tm.kind m with
  | some p => { tm with wgm := p }
  | none => tm

/-- `COM[t][ch] <- mode` (10 R17). -/
def Timer.writeCom (tm : Timer) (ch : Channel) (m : ComMode) : Timer :=
  tm.setChan ch { tm.chan ch with com := m.pattern }

/-- `OCR[t][ch] <- trunc_CW(v)`, in one write (10 R18, 42 R101). -/
def Timer.writeCompare (tm : Timer) (ch : Channel) (v : Nat) : Timer :=
  tm.setChan ch { tm.chan ch with ocr := truncCompare tm.kind v }

/-- `DDR[t][ch] <- 1`, pin configured as output (10 R19). -/
def Timer.enablePin (tm : Timer) (ch : Channel) : Timer :=
  tm.setChan ch { tm.chan ch with ddr := true }

/-- `BOUND[t][ch] <- 1` (10 R22). -/
def Timer.bind (tm : Timer) (ch : Channel) : Timer :=
  tm.setChan ch { tm.chan ch with bound := true }

/-! ### Timers in the state -/

/-- Timer `t`, present exactly when `t < NT` (10 R14). -/
def State.timer (s : State) (t : Nat) : Option Timer := s.timers[t]?

/-- The state with timer `t` replaced. -/
def State.setTimer (s : State) (t : Nat) (tm : Timer) : State :=
  { s with timers := s.timers.set t tm }

/-- `NT`, the number of timers (00 R6). -/
def State.timerCount (s : State) : Nat := s.timers.length

/-! ### Legality before any effect (30 R63) -/

/-- Case I2: a `PWM.*` command with `t >= NT` is illegal. -/
def onTimer (t : Nat) (s : State) (k : Timer → Result) : Result :=
  match s.timer t with
  | some tm => k tm
  | none => illegal s

/-- Cases I2 and I3: also illegal while `BOUND[t][ch] = 0`. -/
def onBound (t : Nat) (ch : Channel) (s : State) (k : Timer → Result) : Result :=
  onTimer t s fun tm => if (tm.chan ch).bound then k tm else illegal s

/-- Case I4: also illegal on a timer that is not 16-bit. -/
def onBound16 (t : Nat) (ch : Channel) (s : State) (k : Timer → Result) : Result :=
  onBound t ch s fun tm => if tm.kind = .t16 then k tm else illegal s

/-- Case I5: also illegal on a 16-bit timer. -/
def onBound8 (t : Nat) (ch : Channel) (s : State) (k : Timer → Result) : Result :=
  onBound t ch s fun tm => if tm.kind = .t16 then illegal s else k tm

/-! ### Draws of register values (40 R83, 41 R96) -/

/-- `CS[t] <- any_3; WGM[t] <- any_4`, at draw number `n`. -/
def Timer.drawClockAndWave (tm : Timer) (n : Nat) : Timer :=
  { tm with cs := Config.freeClockSelect n, wgm := Config.freeWaveform n }

/-- `OCR[t][A] <- any_8`, at draw number `n`. -/
def Timer.drawTop (tm : Timer) (n : Nat) : Timer :=
  tm.writeCompare .A (Config.freeTop n).toNat

/-- The next draw of register values is another one. -/
def State.countPwmDraw (s : State) : State := { s with pwmDraws := s.pwmDraws + 1 }

/-! ### The transport (44 R113) -/

/-- The transport's answer to the next attempt: the next listed one, else a draw. -/
def State.nextAnswer (s : State) : Bool :=
  match s.answers with
  | a :: _ => a
  | [] => Config.freeAccept s.acceptDraws

/-- That answer is used up; a draw is counted when none was listed. -/
def State.dropAnswer (s : State) : State :=
  { s with
    answers := s.answers.tail
    acceptDraws := s.acceptDraws + (if s.answers = [] then 1 else 0) }

/-- `TryWrite(b)`: the attempt is made and answered in this step; the answer is `s.nextAnswer`. -/
def State.tryWrite (s : State) (b : Byte) : State :=
  { s.dropAnswer with attempts := s.attempts ++ [{ byte := b, accepted := s.nextAnswer }] }

/-- The bytes on the wire: the accepted attempts, in the order they were made (20 R51). -/
def State.wire (s : State) : List Byte := (s.attempts.filter (·.accepted)).map (·.byte)

/-! ### The message context (10 R24 to R27) -/

/-- `MSTATE <- m`. -/
def State.setMState (s : State) (m : MState) : State := { s with msg := { s.msg with mstate := m } }

/-- `MCUR <- MCUR + 1`. -/
def State.advanceCursor (s : State) : State := { s with msg := { s.msg with mcur := s.msg.mcur + 1 } }

/-- The address of payload byte `i`, `trunc_16(MPTR + i)` (20 R43). -/
def payloadAddr (ptr : Addr) (i : Nat) : Addr := ptr + BitVec.ofNat 16 i

/-! ### What the outside does between commands -/

/-- The event at the head of the inputs is used up. -/
def State.takeInput (s : State) (rest : List HostEvent) : State := { s with inputs := rest }

/-- No event: the block waits for a command, always ready for one (70 R145, 60 R142). -/
def waitForCommand (s : State) : Result := .next s

/-- A reserved word behaves as `illegal()` whatever the reason (30 R64). -/
def reservedWord (reason : DecodeReject) (s : State) : Result :=
  match reason with
  | .unknownOp => illegal s
  | .mustBeZero => illegal s

/-- The host writes a byte of payload memory (00 R5, 20 R53): no register changes. -/
def hostWrite (addr : Addr) (b : Byte) (s : State) : Result :=
  .next { s with mem := s.mem.write addr b }

/-- The reset input (70 R145): every register takes its reset value, with no response. The kinds are
fixed; bytes on the wire stay there; payload memory and the transport are outside the block
(notes/assumptions/11.md). -/
def resetInput (s : State) : Result :=
  .next { s with
    timers := s.timers.map fun tm => Timer.reset tm.kind
    msg := MsgContext.reset
    response := none }

end Sys2Proof.Machine
end

