-- ==== Sys2Proof/Machine/MsgFraming.lean ====
section
/-! DEFINITION. The message framing state machine (spec/44_msg_framing.md R114 to R126). -/

namespace Sys2Proof.Machine

/-- The 8-bit wrapping sum of the first `n` payload bytes, read in ascending order (44 R117). -/
def payloadSum (mem : Memory) (ptr : Addr) : Nat → Byte
  | 0 => 0
  | n + 1 => payloadSum mem ptr n + mem.read (payloadAddr ptr n)

/-- The two's-complement checksum of a sum, `((s XOR 0xFF) + 1) mod 256` (44 R116). -/
def checksumOf (sum : Byte) : Byte := (sum ^^^ 0xFF) + 1

/-- `HexDigit(v)`, lowercase (44 R119). -/
def hexDigit (v : BitVec 4) : Byte :=
  if v.toNat ≤ 9 then BitVec.ofNat 8 (0x30 + v.toNat) else BitVec.ofNat 8 (0x61 + (v.toNat - 10))

/-- `HexDigit(MCK[7:4])` (44 R122). -/
def highDigit (mck : Byte) : Byte := hexDigit (mck.extractLsb' 4 4)

/-- `HexDigit(MCK[3:0])` (44 R123). -/
def lowDigit (mck : Byte) : Byte := hexDigit (mck.extractLsb' 0 4)

/-- `MSG.INIT` (44 R117): legal in every state, also in the middle of a frame. -/
def execMsgInit (ptr len : BitVec 16) (s : State) : Result :=
  respond false
    { s with msg :=
        { mstate := .header
          mptr := ptr
          mlen := len
          mcur := 0
          mck := checksumOf (payloadSum s.mem ptr len.toNat) } }

/-- One attempt at the byte `b`; accepted, `MSTATE` moves to `m` and the response is `done`; rejected,
nothing changes in the context (44 R120, R122 to R124). -/
def attemptMove (b : Byte) (m : MState) (done : Bool) (s : State) : Result :=
  if s.nextAnswer then respond done ((s.tryWrite b).setMState m) else respond false (s.tryWrite b)

/-- The attempt of the `DATA` arm: at the payload byte the cursor points to, when there is one; the
cursor advances when it is accepted (44 R121). -/
def attemptPayload (s : State) : State :=
  if s.msg.mcur.toNat < s.msg.mlen.toNat then
    let sent := s.tryWrite (s.mem.read (payloadAddr s.msg.mptr s.msg.mcur.toNat))
    if s.nextAnswer then sent.advanceCursor else sent
  else s

/-- The completion test of the `DATA` arm, made after the attempt, accepted or not (44 R121). -/
def completePayload (s : State) : State :=
  if s.msg.mlen.toNat ≤ s.msg.mcur.toNat then s.setMState .ckh else s

/-- `MSG.STEP` (44 R118), one arm per state. -/
def execMsgStep (s : State) : Result :=
  match s.msg.mstate with
  | .idle => illegal s
  | .header => attemptMove 0x3A .data false s
  | .data => respond false (completePayload (attemptPayload s))
  | .ckh => attemptMove (highDigit s.msg.mck) .ckl false s
  | .ckl => attemptMove (lowDigit s.msg.mck) .endMark false s
  | .endMark => attemptMove 0x0A .sent true s
  | .sent => illegal s

end Sys2Proof.Machine
end

