-- ==== Sys2Proof/Machine/PwmDuty.lean ====
section
/-! DEFINITION. The duty-cycle command, the compare-register writer (spec/42_pwm_duty.md R100, R101). -/

namespace Sys2Proof.Machine

/-- `PWM.DUTY` (42 R100): an unconditional write of the low `CW` bits to the channel's own compare
register. -/
def execPwmDuty (t : Nat) (ch : Channel) (value : BitVec 32) (s : State) : Result :=
  onBound t ch s fun tm => respond false (s.setTimer t (tm.writeCompare ch value.toNat))

end Sys2Proof.Machine
end

