-- ==== Sys2Proof/Machine/Select.lean ====
section
/-! DEFINITION. The prescaler selector and the mode arbiter (spec/40_pwm_selection_hint.md R75 to R78,
R88): exact unsigned arithmetic on natural numbers. The scan is reading B of spec/90_conflicts.md C1. -/

namespace Sys2Proof.Machine

/-- `Divisor(cpu, f, W) = (cpu >> W) / f` (40 R75); used only for `f != 0`. -/
def divisor (cpu f : BitVec 32) (w : CounterWidth) : Nat := (cpu.toNat >>> w.bits) / f.toNat

/-- The scan of `Select` from index `k` on (40 R76). The end of the table gives the last index in
phase-correct mode (40 R77). -/
def selectFrom (d : Nat) : Nat → List Nat → PwmMode × Nat
  | k, [] => (.pc, k - 1)
  | k, e :: rest =>
      if e > d then (.fast, k)
      else if 2 * e > d then (.pc, k)
      else selectFrom d (k + 1) rest

/-- `Select(D, T)` (40 R76, R77). -/
def select (d : Nat) (table : List Nat) : PwmMode × Nat := selectFrom d 0 table

/-- `ProgramHint(t, m, k, W)` on a timer (40 R78). -/
def programHint (tm : Timer) (m : PwmMode) (k : Nat) (w : CounterWidth) : Timer :=
  (tm.writeCs (k + 1)).writeWave (.free m w)

end Sys2Proof.Machine
end

