-- ==== Sys2Proof/Machine/PwmExact.lean ====
section
/-! DEFINITION. The exact frequency command (spec/41_pwm_exact.md R90 to R96). -/

namespace Sys2Proof.Machine

/-- What the four cases write: the final mode, clock-select and top (41 R93). -/
structure ExactChoice where
  mode : PwmMode
  cs : Nat
  top : Nat
  deriving DecidableEq, Repr

/-- The top formula, `cpu_frequency / (frequency * effective_divisor)`, the product exact and the
division rounding toward zero (41 R92). -/
def exactTop (cpu f : BitVec 32) (effective : Nat) : Nat := cpu.toNat / (f.toNat * effective)

/-- The four cases of 41 R90 and R93; case 1 is tested first (decision D28). -/
def exactChoice (cpu f : BitVec 32) (table : List Nat) : ExactChoice :=
  let d := divisor cpu f .w8
  let choice := select d table
  let k := choice.2
  if d = 0 then
    { mode := .fast, cs := 1, top := exactTop cpu f (tableEntry table 0) }
  else if choice.1 = .fast then
    { mode := .pc, cs := k + 1, top := exactTop cpu f (2 * tableEntry table k) }
  else if k + 1 < table.length then
    { mode := .fast, cs := k + 2, top := exactTop cpu f (tableEntry table (k + 1)) }
  else
    { mode := .pc, cs := table.length, top := 255 }

/-- The three writes of a choice; the top goes to channel A whatever the command's channel (41 R90). -/
def programExact (tm : Timer) (c : ExactChoice) : Timer :=
  ((tm.writeCs c.cs).writeWave (.ocra c.mode)).writeCompare .A c.top

/-- What a legal `PWM.EXACT` does on timer `tm = t` (41 R90, R96). -/
def exactEffect (t : Nat) (f cpu : BitVec 32) (s : State) (tm : Timer) : Result :=
  if f = 0 then
    respond false
      (s.countPwmDraw.setTimer t ((tm.drawClockAndWave s.pwmDraws).drawTop s.pwmDraws))
  else
    respond false (s.setTimer t (programExact tm (exactChoice cpu f (divisorTable tm.kind))))

/-- `PWM.EXACT` (41 R90); illegal on a 16-bit timer (41 R91). -/
def execPwmExact (t : Nat) (ch : Channel) (f cpu : BitVec 32) (s : State) : Result :=
  onBound8 t ch s (exactEffect t f cpu s)

end Sys2Proof.Machine
end

