-- ==== Sys2Proof/Machine/PwmHint.lean ====
section
/-! DEFINITION. The hint commands (spec/40_pwm_selection_hint.md R79, R80, R81, R83). -/

namespace Sys2Proof.Machine

/-- What a legal hint command of width `w` does on timer `tm = t` (40 R79): a zero frequency draws
`CS[t]` and `WGM[t]` (R83), any other selects them. -/
def hintEffect (w : CounterWidth) (t : Nat) (f cpu : BitVec 32) (s : State) (tm : Timer) : Result :=
  if f = 0 then
    respond false (s.countPwmDraw.setTimer t (tm.drawClockAndWave s.pwmDraws))
  else
    let choice := select (divisor cpu f w) (divisorTable tm.kind)
    respond false (s.setTimer t (programHint tm choice.1 choice.2 w))

/-- `PWM.HINT8` (40 R79). -/
def execPwmHint8 (t : Nat) (ch : Channel) (f cpu : BitVec 32) (s : State) : Result :=
  onBound t ch s (hintEffect .w8 t f cpu s)

/-- `PWM.HINT9` (40 R80). -/
def execPwmHint9 (t : Nat) (ch : Channel) (f cpu : BitVec 32) (s : State) : Result :=
  onBound16 t ch s (hintEffect .w9 t f cpu s)

/-- `PWM.HINT10` (40 R81). -/
def execPwmHint10 (t : Nat) (ch : Channel) (f cpu : BitVec 32) (s : State) : Result :=
  onBound16 t ch s (hintEffect .w10 t f cpu s)

end Sys2Proof.Machine
end

