-- ==== Sys2Proof/Machine/PwmLifecycle.lean ====
section
/-! DEFINITION. The channel lifecycle commands (spec/43_pwm_lifecycle.md R105 to R110). -/

namespace Sys2Proof.Machine

/-- The three writes of `PWM.INIT` (43 R105). -/
def Timer.initChannel (tm : Timer) (ch : Channel) : Timer :=
  ((tm.enablePin ch).writeCom ch .clear).bind ch

/-- The three writes of `PWM.CLOSE` (43 R107). -/
def Timer.closeChannel (tm : Timer) (ch : Channel) : Timer :=
  ((tm.writeCom ch .normal).writeWave .normal).writeCs 0

/-- `PWM.INIT` (43 R105): legal for every timer that exists, bound or not (43 R106). -/
def execPwmInit (t : Nat) (ch : Channel) (s : State) : Result :=
  onTimer t s fun tm => respond false (s.setTimer t (tm.initChannel ch))

/-- `PWM.CLOSE` (43 R107): the binding stays (43 R109). -/
def execPwmClose (t : Nat) (ch : Channel) (s : State) : Result :=
  onBound t ch s fun tm => respond false (s.setTimer t (tm.closeChannel ch))

end Sys2Proof.Machine
end

