-- ==== Sys2Proof/Machine/Dispatch.lean ====
section
/-! DEFINITION. From a command to its meaning, one arm per row of spec/opcode_table.json. -/

namespace Sys2Proof.Machine

def exec (i : Instr) (s : State) : Host.Outcome State Fault Refusal :=
  match i with
  | .pwmInit t ch => Sys2Proof.Machine.execPwmInit t ch s
  | .pwmHint8 t ch f cpu => Sys2Proof.Machine.execPwmHint8 t ch f cpu s
  | .pwmHint9 t ch f cpu => Sys2Proof.Machine.execPwmHint9 t ch f cpu s
  | .pwmHint10 t ch f cpu => Sys2Proof.Machine.execPwmHint10 t ch f cpu s
  | .pwmExact t ch f cpu => Sys2Proof.Machine.execPwmExact t ch f cpu s
  | .pwmDuty t ch value => Sys2Proof.Machine.execPwmDuty t ch value s
  | .pwmClose t ch => Sys2Proof.Machine.execPwmClose t ch s
  | .msgInit ptr len => Sys2Proof.Machine.execMsgInit ptr len s
  | .msgStep => Sys2Proof.Machine.execMsgStep s

end Sys2Proof.Machine
end

