-- ==== Sys2Proof/Machine/Step.lean ====
section
/-! DEFINITION. One step of the machine: the next thing the outside brings, a command word decoded and
executed completely (spec/30_encoding.md R56, R59, spec/20_memory.md R50). -/

namespace Sys2Proof.Machine

/-- One step takes the event at the head of the inputs; with none the block waits. -/
def step (s : State) : Host.Outcome State Fault Refusal :=
  match s.inputs with
  | [] => waitForCommand s
  | .command w :: rest =>
      match decode w with
      | .ok i => exec i (s.takeInput rest)
      | .error reason => reservedWord reason (s.takeInput rest)
  | .memWrite addr b :: rest => hostWrite addr b (s.takeInput rest)
  | .reset :: rest => resetInput (s.takeInput rest)

/-- The state in which the host presents the given opcode-table word next (notes/assumptions/3.md). -/
def State.withFetchWord (s : State) (nbits w : Nat) : State :=
  { s with inputs := .command (wordOfTable nbits w) :: s.inputs }

end Sys2Proof.Machine
end

