-- ==== Sys2Proof/Machine/Ports.lean ====
section
/-! DEFINITION. The output ports of the block (spec/60_exceptions.md R139, spec/10_state.md R21): the
registers as they stand, continuously visible. A port of a timer that does not exist shows nothing. -/

namespace Sys2Proof.Machine

/-- `cs_o[t]`. -/
def State.csPort (s : State) (t : Nat) : Option (BitVec 3) := (s.timer t).map (·.cs)

/-- `wgm_o[t]`. -/
def State.wgmPort (s : State) (t : Nat) : Option (BitVec 4) := (s.timer t).map (·.wgm)

/-- `com_o[t][ch]`. -/
def State.comPort (s : State) (t : Nat) (ch : Channel) : Option (BitVec 2) :=
  (s.timer t).map fun tm => (tm.chan ch).com

/-- `ocr_o[t][ch]`, 8 or 16 bits wide by the kind of the timer. -/
def State.ocrPort (s : State) (t : Nat) (ch : Channel) : Option (Σ w : Nat, BitVec w) :=
  (s.timer t).map fun tm => ⟨compareWidth tm.kind, (tm.chan ch).ocr.setWidth (compareWidth tm.kind)⟩

/-- `ddr_o[t][ch]`. -/
def State.ddrPort (s : State) (t : Nat) (ch : Channel) : Option Bool :=
  (s.timer t).map fun tm => (tm.chan ch).ddr

/-- The top the counter counts to, by the port's waveform mode: a fixed one, or `OCR[t][A]`
(10 R16, 42 R102). Plain counting and unnamed patterns have none in the spec. -/
def Timer.activeTop (tm : Timer) : Option Nat :=
  match waveName tm.kind tm.wgm with
  | some (.free _ w) => some w.freeTop
  | some (.ocra _) => some tm.chanA.ocr.toNat
  | some .normal => none
  | none => none

end Sys2Proof.Machine
end

