-- ==== Sys2Proof/Safety.lean ====
section
/-! DEFINITION. The terms claims use: the invariant every step keeps, the states in which every register
holds a pattern some legal command writes, the caller's contract, and a safe run. -/

namespace Sys2Proof

/-- The one operand contract whose breach leaves registers unspecified: `frequency` is not zero
(70 R163). -/
def Instr.honoursContract : Instr → Bool
  | .pwmInit _ _ => true
  | .pwmHint8 _ _ f _ => decide (f ≠ 0)
  | .pwmHint9 _ _ f _ => decide (f ≠ 0)
  | .pwmHint10 _ _ f _ => decide (f ≠ 0)
  | .pwmExact _ _ f _ => decide (f ≠ 0)
  | .pwmDuty _ _ _ => true
  | .pwmClose _ _ => true
  | .msgInit _ _ => true
  | .msgStep => true

end Sys2Proof

namespace Sys2Proof.Machine

/-- What holds of a channel's registers after reset and after every command: the compare register fits
its width (10 R18), `COM` is `NORMAL`, or `CLEAR` on a bound channel (10 R17), and the pin is an output
exactly when the channel was bound (43 R105). -/
abbrev Chan.Inv (kind : TimerKind) (c : Chan) : Prop :=
  c.ocr.toNat < 2 ^ compareWidth kind ∧
  (c.com = 0b00 ∨ (c.com = 0b10 ∧ c.bound = true)) ∧
  c.ddr = c.bound

/-- Both channels of a timer. -/
abbrev Timer.Inv (tm : Timer) : Prop := Chan.Inv tm.kind tm.chanA ∧ Chan.Inv tm.kind tm.chanB

/-- The invariants of the message context alone (44 R125, R121 consequence (b)); the fourth of R125 speaks
of payload memory too and is `State.ChecksumFormed`. -/
abbrev MsgContext.Inv (m : MsgContext) : Prop :=
  m.mcur.toNat ≤ m.mlen.toNat ∧
  (m.mstate = .header → m.mcur = 0) ∧
  (m.mstate = .data → m.mcur.toNat < m.mlen.toNat ∨ m.mlen = 0) ∧
  (m.mstate ∈ [MState.ckh, .ckl, .endMark, .sent] → m.mcur = m.mlen)

/-- The invariant of the state: one to eight timers (00 R6), payload memory in canonical form, and the
invariants above. -/
abbrev State.Inv (s : State) : Prop :=
  1 ≤ s.timers.length ∧ s.timers.length ≤ 8 ∧
  (∀ tm ∈ s.timers, tm.Inv) ∧
  s.msg.Inv ∧
  s.mem.wf = true

/-- The fourth invariant of 44 R125: with a frame in progress or complete, `MCK` is the checksum of the
payload bytes. It speaks of the bytes as they were at `MSG.INIT`, so a host write to one of them ends it
(20 R53). -/
abbrev State.ChecksumFormed (s : State) : Prop :=
  s.msg.mstate ≠ .idle → s.msg.mck = checksumOf (payloadSum s.mem s.msg.mptr s.msg.mlen.toNat)

/-- `CS` is 0 or selects a table entry and `WGM` holds a pattern that names a mode (10 R15, R16). -/
abbrev Timer.Named (tm : Timer) : Prop :=
  tm.cs.toNat ≤ tableSize tm.kind ∧ (waveName tm.kind tm.wgm).isSome = true

/-- Every timer is so. -/
abbrev State.Named (s : State) : Prop := ∀ tm ∈ s.timers, tm.Named

/-- A host event honours the contract when the command it presents, if any, does. -/
def HostEvent.honoursContract : HostEvent → Bool
  | .command w => match decode w with
    | .ok i => i.honoursContract
    | .error _ => true
  | .memWrite _ _ => true
  | .reset => true

/-- The response port reports no illegal command. -/
def State.notIllegal (s : State) : Bool :=
  match s.response with
  | some r => !r.illegal
  | none => true

/-- A safe run of `n` steps: every event honours the contract and no command is reported illegal. -/
def State.safeFor : Nat → State → Bool
  | 0, _ => true
  | n + 1, s =>
      (match s.inputs with
        | [] => true
        | e :: _ => e.honoursContract) &&
      match step s with
      | .next s' => s'.notIllegal && safeFor n s'
      | .fault _ => false
      | .refused _ => false

end Sys2Proof.Machine
end

