-- ==== Sys2Proof/Certificates/Slice0/Obligations.lean ====
section
/-! DEFINITION. The statements for the provers, from the numbered rules of spec/, and the few words they
are written in (`Sys2Proof.Claims`), which repeat the spec's tables and numbers and not the model's. -/

namespace Sys2Proof.Claims

open Sys2Proof.Machine

/-! ### Words -/

/-- The registers of channel `ch`. -/
def regs (tm : Timer) : Channel → Chan
  | .A => tm.chanA
  | .B => tm.chanB

/-- The other channel of a timer. -/
def other : Channel → Channel
  | .A => .B
  | .B => .A

/-- Timer `t` exists, is `tm`, and its channel `ch` is bound (10 R22). -/
def BoundAt (s : State) (t : Nat) (ch : Channel) (tm : Timer) : Prop :=
  s.timers[t]? = some tm ∧ (regs tm ch).bound = true

/-- No timer `t`, or channel `ch` of it is not bound (30 R63, I2 and I3). -/
def Unusable (s : State) (t : Nat) (ch : Channel) : Prop :=
  s.timers.length ≤ t ∨ ∃ tm, s.timers[t]? = some tm ∧ (regs tm ch).bound = false

/-- The divisor tables as 00 R6 gives them. -/
def table : TimerKind → List Nat
  | .t8_5 => [1, 8, 64, 256, 1024]
  | .t8_7 => [1, 8, 32, 64, 128, 256, 1024]
  | .t16 => [1, 8, 64, 256, 1024]

/-- `CW` as 00 R6 gives it. -/
def compareBits : TimerKind → Nat
  | .t8_5 => 8
  | .t8_7 => 8
  | .t16 => 16

/-- The pattern of `FAST_FREE<W>` and `PC_FREE<W>` as 10 R16 gives it; an 8-bit timer has `W = 8` only. -/
def freePattern : TimerKind → PwmMode → CounterWidth → BitVec 4
  | .t16, .pc, .w8 => 0b0001
  | .t16, .pc, .w9 => 0b0010
  | .t16, .pc, .w10 => 0b0011
  | .t16, .fast, .w8 => 0b0101
  | .t16, .fast, .w9 => 0b0110
  | .t16, .fast, .w10 => 0b0111
  | _, .pc, _ => 0b0001
  | _, .fast, _ => 0b0011

/-- The hint command of a counter width (40 R79, R80, R81). -/
def hintCommand (w : CounterWidth) (t : Nat) (ch : Channel) (f cpu : BitVec 32) : Instr :=
  match w with
  | .w8 => .pwmHint8 t ch f cpu
  | .w9 => .pwmHint9 t ch f cpu
  | .w10 => .pwmHint10 t ch f cpu

/-- The four frequency commands of a pair. -/
def frequencyCommands (t : Nat) (ch : Channel) (f cpu : BitVec 32) : List Instr :=
  [.pwmHint8 t ch f cpu, .pwmHint9 t ch f cpu, .pwmHint10 t ch f cpu, .pwmExact t ch f cpu]

/-- A hint command of width `w` is one for this timer: widths 9 and 10 need a 16-bit timer (40 R80,
R81). -/
def WidthFits (w : CounterWidth) (tm : Timer) : Prop := w ≠ .w8 → tm.kind = .t16

/-- Everything a `PWM.*` command on timer `t` leaves unchanged in every form: the other timers, the
message registers, every byte of memory, the inputs, and all of the transport. -/
def PwmFrame (t : Nat) (s s' : State) : Prop :=
  (∀ u, u ≠ t → s'.timers[u]? = s.timers[u]?) ∧
  s'.timers.length = s.timers.length ∧
  s'.msg = s.msg ∧
  (∀ a, s'.mem.read a = s.mem.read a) ∧
  s'.inputs = s.inputs ∧
  s'.answers = s.answers ∧
  s'.attempts = s.attempts ∧
  s'.acceptDraws = s.acceptDraws

/-- Everything a `MSG.*` command leaves unchanged in every form: the timers, every byte of memory and
the inputs. -/
def MsgFrame (s s' : State) : Prop :=
  s'.timers = s.timers ∧
  (∀ a, s'.mem.read a = s.mem.read a) ∧
  s'.inputs = s.inputs ∧
  s'.pwmDraws = s.pwmDraws

/-- The state after `illegal()` (30 R63): the response alone. -/
def illegalState (s : State) : State := { s with response := some { illegal := true, done := false } }

/-- The response `{0, done}`. -/
def Responds (s' : State) (done : Bool) : Prop :=
  s'.response = some { illegal := false, done := done }

/-- The `PWM.*` commands. -/
def isPwm : Instr → Bool
  | .msgInit _ _ => false
  | .msgStep => false
  | _ => true

/-- The timer and channel a `PWM.*` command names. -/
def pairOf : Instr → Option (Nat × Channel)
  | .pwmInit t ch => some (t, ch)
  | .pwmHint8 t ch _ _ => some (t, ch)
  | .pwmHint9 t ch _ _ => some (t, ch)
  | .pwmHint10 t ch _ _ => some (t, ch)
  | .pwmExact t ch _ _ => some (t, ch)
  | .pwmDuty t ch _ => some (t, ch)
  | .pwmClose t ch => some (t, ch)
  | .msgInit _ _ => none
  | .msgStep => none

/-- The cases I2 to I6 of 30 R63, by command. -/
def IllegalCommand (s : State) : Instr → Prop
  | .pwmInit t _ => s.timers.length ≤ t
  | .pwmHint8 t ch _ _ => Unusable s t ch
  | .pwmHint9 t ch _ _ => Unusable s t ch ∨ ∃ tm, s.timers[t]? = some tm ∧ tm.kind ≠ .t16
  | .pwmHint10 t ch _ _ => Unusable s t ch ∨ ∃ tm, s.timers[t]? = some tm ∧ tm.kind ≠ .t16
  | .pwmExact t ch _ _ => Unusable s t ch ∨ ∃ tm, s.timers[t]? = some tm ∧ tm.kind = .t16
  | .pwmDuty t ch _ => Unusable s t ch
  | .pwmClose t ch => Unusable s t ch
  | .msgInit _ _ => False
  | .msgStep => s.msg.mstate = .idle ∨ s.msg.mstate = .sent

/-! ### The opcode table (30 R58) -/

/-- A row: mnemonic, match, mask. -/
structure OpcodeRow where
  mnemonic : String
  pattern : CmdWord
  mask : CmdWord
  deriving DecidableEq, Repr

/-- The nine rows of spec/opcode_table.json. -/
def opcodeRows : List OpcodeRow :=
  [⟨"PWM.INIT", 0x01000000000000000000, 0xFFF0FFFFFFFFFFFFFFFF⟩,
   ⟨"PWM.HINT8", 0x02000000000000000000, 0xFFF00000000000000000⟩,
   ⟨"PWM.HINT9", 0x03000000000000000000, 0xFFF00000000000000000⟩,
   ⟨"PWM.HINT10", 0x04000000000000000000, 0xFFF00000000000000000⟩,
   ⟨"PWM.EXACT", 0x05000000000000000000, 0xFFF00000000000000000⟩,
   ⟨"PWM.DUTY", 0x06000000000000000000, 0xFFF000000000FFFFFFFF⟩,
   ⟨"PWM.CLOSE", 0x07000000000000000000, 0xFFF0FFFFFFFFFFFFFFFF⟩,
   ⟨"MSG.INIT", 0x10000000000000000000, 0xFFFFFFFF0000FFFF0000⟩,
   ⟨"MSG.STEP", 0x11000000000000000000, 0xFFFFFFFFFFFFFFFFFFFF⟩]

/-- The mnemonic of a command. -/
def mnemonicOf : Instr → String
  | .pwmInit _ _ => "PWM.INIT"
  | .pwmHint8 _ _ _ _ => "PWM.HINT8"
  | .pwmHint9 _ _ _ _ => "PWM.HINT9"
  | .pwmHint10 _ _ _ _ => "PWM.HINT10"
  | .pwmExact _ _ _ _ => "PWM.EXACT"
  | .pwmDuty _ _ _ => "PWM.DUTY"
  | .pwmClose _ _ => "PWM.CLOSE"
  | .msgInit _ _ => "MSG.INIT"
  | .msgStep => "MSG.STEP"

/-- A word is the command of a row when `w AND mask = match`. -/
def Matches (row : OpcodeRow) (w : CmdWord) : Prop := w &&& row.mask = row.pattern

/-- The word matches no row: it is reserved (30 R64). -/
def Reserved (w : CmdWord) : Prop := ∀ row ∈ opcodeRows, ¬ Matches row w

/-- Bits 71:68, 67:65, 64, 71:64, 63:32 and 31:0 of a word as numbers (30 R55). -/
def rsvBits (w : CmdWord) : Nat := w.toNat / 2 ^ 68 % 2 ^ 4
def tBits (w : CmdWord) : Nat := w.toNat / 2 ^ 65 % 8
def chBits (w : CmdWord) : Nat := w.toNat / 2 ^ 64 % 2
def selBits (w : CmdWord) : Nat := w.toNat / 2 ^ 64 % 2 ^ 8
def aBits (w : CmdWord) : Nat := w.toNat / 2 ^ 32 % 2 ^ 32
def bBits (w : CmdWord) : Nat := w.toNat % 2 ^ 32

/-- `ch`: 0 = A, 1 = B. -/
def chNumber : Channel → Nat
  | .A => 0
  | .B => 1

/-- `t` and `ch` come from their fields, and the reserved bits beside them are zero (30 R55). -/
def PairFrom (w : CmdWord) (t : Nat) (ch : Channel) : Prop :=
  rsvBits w = 0 ∧ t = tBits w ∧ chNumber ch = chBits w

/-- The operands of a command, field by field, and its must-be-zero fields (the table of 30 R57). -/
def OperandsFrom (w : CmdWord) : Instr → Prop
  | .pwmInit t ch => PairFrom w t ch ∧ aBits w = 0 ∧ bBits w = 0
  | .pwmHint8 t ch f c => PairFrom w t ch ∧ f.toNat = aBits w ∧ c.toNat = bBits w
  | .pwmHint9 t ch f c => PairFrom w t ch ∧ f.toNat = aBits w ∧ c.toNat = bBits w
  | .pwmHint10 t ch f c => PairFrom w t ch ∧ f.toNat = aBits w ∧ c.toNat = bBits w
  | .pwmExact t ch f c => PairFrom w t ch ∧ f.toNat = aBits w ∧ c.toNat = bBits w
  | .pwmDuty t ch v => PairFrom w t ch ∧ v.toNat = aBits w ∧ bBits w = 0
  | .pwmClose t ch => PairFrom w t ch ∧ aBits w = 0 ∧ bBits w = 0
  | .msgInit ptr len => selBits w = 0 ∧ ptr.toNat = aBits w ∧ len.toNat = bBits w
  | .msgStep => selBits w = 0 ∧ aBits w = 0 ∧ bBits w = 0

/-! ### Selection -/

/-- `D = (cpu >> W) / f` (40 R75), as a quotient of quotients. -/
def quotient (cpu f : BitVec 32) (w : CounterWidth) : Nat := cpu.toNat / 2 ^ w.bits / f.toNat

/-- `Select` on the 5-entry table by ranges of `D` (40 R82). -/
def ranges5 (d : Nat) : PwmMode × Nat :=
  if d < 1 then (.fast, 0) else if d < 2 then (.pc, 0)
  else if d < 8 then (.fast, 1) else if d < 16 then (.pc, 1)
  else if d < 64 then (.fast, 2) else if d < 128 then (.pc, 2)
  else if d < 256 then (.fast, 3) else if d < 512 then (.pc, 3)
  else if d < 1024 then (.fast, 4) else (.pc, 4)

/-- `Select` on the 7-entry table by ranges of `D` (40 R82). -/
def ranges7 (d : Nat) : PwmMode × Nat :=
  if d < 1 then (.fast, 0) else if d < 2 then (.pc, 0)
  else if d < 8 then (.fast, 1) else if d < 16 then (.pc, 1)
  else if d < 32 then (.fast, 2) else if d < 64 then (.pc, 2)
  else if d < 128 then (.pc, 3) else if d < 256 then (.pc, 4)
  else if d < 512 then (.pc, 5) else if d < 1024 then (.fast, 6) else (.pc, 6)

/-- The effective divisor the registers of a timer show: the selected prescaler, doubled when the
waveform mode is the given phase-correct pattern (40 R85, 41 R95). -/
def Effective (tm : Timer) (phaseCorrect : BitVec 4) (e : Nat) : Prop :=
  ∃ p, 1 ≤ tm.cs.toNat ∧ (table tm.kind)[tm.cs.toNat - 1]? = some p ∧
    e = if tm.wgm = phaseCorrect then 2 * p else p

/-! ### Messages -/

/-- The address of payload byte `i` (20 R43). -/
def byteAddr (ptr : BitVec 16) (i : Nat) : BitVec 16 := BitVec.ofNat 16 ((ptr.toNat + i) % 65536)

/-- The payload bytes of a pointer and a length, in index order. -/
def payload (mem : Memory) (ptr len : BitVec 16) : List Byte :=
  (List.range len.toNat).map fun i => mem.read (byteAddr ptr i)

/-- The sum of the payload bytes modulo 256 (44 R116). -/
def sumMod (mem : Memory) (ptr len : BitVec 16) : Nat :=
  ((payload mem ptr len).map BitVec.toNat).sum % 256

/-- The lowercase hex digit of a nibble (44 R119). -/
def digit (v : Nat) : Byte := if v ≤ 9 then BitVec.ofNat 8 (0x30 + v) else BitVec.ofNat 8 (0x61 + (v - 10))

/-- The complete frame of the message context (44 R128). -/
def frame (s : State) : List Byte :=
  [0x3A] ++ payload s.mem s.msg.mptr s.msg.mlen ++
    [digit (s.msg.mck.toNat / 16), digit (s.msg.mck.toNat % 16), 0x0A]

/-- How many bytes of the frame the transport has accepted, by the state (44 R114, R128). -/
def sentCount (m : MsgContext) : Nat :=
  match m.mstate with
  | .idle => 0
  | .header => 0
  | .data => 1 + m.mcur.toNat
  | .ckh => 1 + m.mlen.toNat
  | .ckl => 2 + m.mlen.toNat
  | .endMark => 3 + m.mlen.toNat
  | .sent => 4 + m.mlen.toNat

/-- The accepted bytes, in the order of the attempts (20 R51). -/
def wireOf (s : State) : List Byte := (s.attempts.filter (·.accepted)).map (·.byte)

/-- The wire is what it was before the frame, then the accepted part of the frame. -/
def FrameSoFar (base : List Byte) (s : State) : Prop :=
  wireOf s = base ++ (frame s).take (sentCount s.msg)

/-- The address is that of a payload byte of the message context (20 R43). -/
def PayloadByte (s : State) (addr : Addr) : Prop :=
  ∃ i, i < s.msg.mlen.toNat ∧ addr = byteAddr s.msg.mptr i

/-- An event that leaves the frame in progress what it is: a command but a `MSG.INIT`, or a host write to
canonical memory that is not to a payload byte. -/
def KeepsFrame (s : State) : HostEvent → Prop
  | .command w => ∀ ptr len, decode w ≠ .ok (.msgInit ptr len)
  | .memWrite addr _ => s.mem.wf = true ∧ ¬ PayloadByte s addr
  | .reset => False

/-- What one attempt does to the transport's side: the byte and its answer are recorded, one answer is
used up, and nothing else there changes. -/
def Attempted (b : Byte) (s s' : State) : Prop :=
  s'.attempts = s.attempts ++ [{ byte := b, accepted := s.nextAnswer }] ∧
  s'.answers = s.answers.tail ∧
  s'.acceptDraws = s.acceptDraws + (if s.answers = [] then 1 else 0)

/-- No attempt: nothing at the transport changes. -/
def NotAttempted (s s' : State) : Prop :=
  s'.attempts = s.attempts ∧ s'.answers = s.answers ∧ s'.acceptDraws = s.acceptDraws

/-- An arm of `MSG.STEP` that attempts `b`: accepted, `MSTATE` becomes `m` and the response is `done`;
rejected, no message register changes and the response is `{0, 0}`. -/
def ArmAttempts (s : State) (b : Byte) (m : MState) (done : Bool) : Prop :=
  ∃ s', exec .msgStep s = .next s' ∧ MsgFrame s s' ∧ Attempted b s s' ∧
    (s.nextAnswer = true → s'.msg = { s.msg with mstate := m } ∧ Responds s' done) ∧
    (s.nextAnswer = false → s'.msg = s.msg ∧ Responds s' false)

/-- `n` times `MSG.STEP`. -/
def drive : Nat → State → Result
  | 0, s => .next s
  | n + 1, s =>
    match exec .msgStep s with
    | .next s' => drive n s'
    | .fault r => .fault r
    | .refused r => .refused r

/-! ### Which commands write a register (10 R31) -/

/-- The frequency commands and `PWM.CLOSE` of timer `t` write `CS[t]` and `WGM[t]`. -/
def writesClock (t : Nat) : Instr → Prop
  | .pwmHint8 u _ _ _ => u = t
  | .pwmHint9 u _ _ _ => u = t
  | .pwmHint10 u _ _ _ => u = t
  | .pwmExact u _ _ _ => u = t
  | .pwmClose u _ => u = t
  | _ => False

/-- `PWM.INIT` and `PWM.CLOSE` of the pair write `COM[t][ch]`. -/
def writesCom (t : Nat) (ch : Channel) : Instr → Prop
  | .pwmInit u c => u = t ∧ c = ch
  | .pwmClose u c => u = t ∧ c = ch
  | _ => False

/-- `PWM.DUTY` of the pair writes `OCR[t][ch]`, and `PWM.EXACT` of the timer `OCR[t][A]`. -/
def writesOcr (t : Nat) (ch : Channel) : Instr → Prop
  | .pwmDuty u c _ => u = t ∧ c = ch
  | .pwmExact u _ _ _ => u = t ∧ ch = .A
  | _ => False

/-- `PWM.INIT` of the pair writes `DDR[t][ch]` and `BOUND[t][ch]`. -/
def writesBinding (t : Nat) (ch : Channel) (i : Instr) : Prop := i = .pwmInit t ch

/-- `MSG.INIT`, whatever its operands. -/
def isMsgInit : Instr → Bool
  | .msgInit _ _ => true
  | _ => false

/-- What two timers agree on that a command may read: the kind and the bindings (10 R21). -/
def SameWiring (tm tm2 : Timer) : Prop :=
  tm.kind = tm2.kind ∧ tm.chanA.bound = tm2.chanA.bound ∧ tm.chanB.bound = tm2.chanB.bound

/-- A register is either kept on both sides or written with the same value on both sides. -/
def KeptOrSame {α : Type} (r : Timer → α) (tm tm2 tm' tm2' : Timer) : Prop :=
  (r tm' = r tm ∧ r tm2' = r tm2) ∨ r tm' = r tm2'

end Sys2Proof.Claims

open Sys2Proof Sys2Proof.Machine Sys2Proof.Claims

/-! ### Encoding -/

/-- 30 R57, R58: decoding the word of a well-formed command gives that command, every operand at every
value. -/
def Obligations.DecodeOfEncode : Prop :=
  ∀ i : Instr, i.wellFormed = true → decode (encode i) = .ok i

/-- 30 section 3 (R59, the spec's decision D7): a word is at most one command, and that command's word
is the word itself. -/
def Obligations.EncodeOfDecode : Prop :=
  ∀ (w : CmdWord) (i : Instr), decode w = .ok i → encode i = w ∧ i.wellFormed = true

/-- 30 R58: a word is the command of a row exactly when `w AND mask = match`; the rows are disjoint, and
a word that matches none is no command. -/
def Obligations.OpcodeTableDecides : Prop :=
  ∀ w : CmdWord,
    (∀ row ∈ opcodeRows,
      (Matches row w ↔ ∃ i, decode w = .ok i ∧ mnemonicOf i = row.mnemonic) ∧
      ∀ row2 ∈ opcodeRows, Matches row w → Matches row2 w → row = row2) ∧
    (Reserved w ↔ ∃ reason, decode w = .error reason)

/-- 30 section 2 (R57, the operand widths by the spec's decisions D2 and D12): every operand is the
unsigned number in its field, must-be-zero fields are zero, and of a duty value only the low `CW` bits
are used. -/
def Obligations.OperandsAreTheFields : Prop :=
  (∀ (w : CmdWord) (i : Instr), decode w = .ok i → OperandsFrom w i) ∧
  (∀ (s : State) (t : Nat) (ch : Channel) (v v2 : BitVec 32),
    (∀ tm : Timer, s.timers[t]? = some tm →
      v.toNat % 2 ^ compareBits tm.kind = v2.toNat % 2 ^ compareBits tm.kind) →
    exec (.pwmDuty t ch v) s = exec (.pwmDuty t ch v2) s)

/-- 30 section 8: the nine worked encodings (a sanity statement). -/
def Obligations.WorkedEncodings : Prop :=
  decode 0x01000000000000000000 = .ok (.pwmInit 0 .A) ∧
  decode 0x01050000000000000000 = .ok (.pwmInit 2 .B) ∧
  decode 0x0201000003E800F42400 = .ok (.pwmHint8 0 .B 1000 16000000) ∧
  decode 0x04020000003200F42400 = .ok (.pwmHint10 1 .A 50 16000000) ∧
  decode 0x0505000001B800F42400 = .ok (.pwmExact 2 .B 440 16000000) ∧
  decode 0x06050000004700000000 = .ok (.pwmDuty 2 .B 71) ∧
  decode 0x07010000000000000000 = .ok (.pwmClose 0 .B) ∧
  decode 0x10000000010000000002 = .ok (.msgInit 0x0100 2) ∧
  decode 0x11000000000000000000 = .ok .msgStep

/-- 30 section 5 (R64, the spec's decision D23): every `op` but the nine, the all-zero word, and every
word of a defined `op` with a non-zero must-be-zero field is reserved, a reserved word behaves as
`illegal()`, and a word that is not reserved is a command: there is no hint and no custom space. -/
def Obligations.ReservedWordsAreIllegal : Prop :=
  (∀ (s : State) (w : CmdWord) (rest : List HostEvent), s.inputs = .command w :: rest → Reserved w →
    step s = .next (illegalState { s with inputs := rest })) ∧
  Reserved 0 ∧
  (∀ w : CmdWord, w.toNat / 2 ^ 72 ∉ [0x01, 0x02, 0x03, 0x04, 0x05, 0x06, 0x07, 0x10, 0x11] →
    Reserved w) ∧
  (∀ row ∈ opcodeRows, ∀ w : CmdWord, w.toNat / 2 ^ 72 = row.pattern.toNat / 2 ^ 72 →
    w &&& row.mask ≠ row.pattern → Reserved w) ∧
  (∀ w : CmdWord, ¬ Reserved w → ∃ i, decode w = .ok i)

/-! ### The step -/

/-- 30 section 3 (R59, the spec's decision D7): a step on a command word that decodes to `i` is `exec
i`, once the word is taken from the command port. -/
def Obligations.StepRunsDecodedCommand : Prop :=
  ∀ (s : State) (w : CmdWord) (rest : List HostEvent) (i : Instr),
    s.inputs = .command w :: rest → decode w = .ok i →
    step s = exec i { s with inputs := rest }

/-- 20 section 7 (R50): events are taken one at a time, in the order they are brought. -/
def Obligations.StepTakesEventsInOrder : Prop :=
  ∀ s s' : State, step s = .next s' → s'.inputs = s.inputs.tail

/-- 60 section 1 (R130), 30 section 3 (R59, the spec's decision D7): no state and no word stops the
machine. -/
def Obligations.EveryStepGoesOn : Prop := ∀ s : State, ∃ s', step s = .next s'

/-- 70 section 1 (R145): with nothing brought from outside the block waits. That a waiting step leaves
the whole state as it is, is the model's reading, notes/assumptions/2.md. -/
def Obligations.BlockWaitsForCommand : Prop :=
  ∀ s : State, s.inputs = [] → step s = .next s

/-- 70 section 1 (R146), 10 section 7 (R31): the reset values, for every timer of the block and for the
message context. They are the spec's decision D6, the timer side from general knowledge
(notes/assumptions/14.md). -/
def Obligations.ResetValues : Prop :=
  (∀ tm ∈ State.reset.timers, ∀ ch : Channel,
    tm.cs = 0 ∧ tm.wgm = 0b0000 ∧ (regs tm ch).com = 0b00 ∧ (regs tm ch).ocr = 0 ∧
    (regs tm ch).ddr = false ∧ (regs tm ch).bound = false) ∧
  State.reset.msg.mstate = .idle ∧ MState.code .idle = 0 ∧ State.reset.msg.mptr = 0 ∧
  State.reset.msg.mlen = 0 ∧ State.reset.msg.mcur = 0 ∧ State.reset.msg.mck = 0

/-- 70 section 1 (R145, the spec's decision D6): the reset input puts every register of every timer at
its reset value, with no response, and the bytes on the wire stay there. That the kinds and payload
memory stay is the model's reading, notes/assumptions/11.md. -/
def Obligations.ResetInputResets : Prop :=
  ∀ (s : State) (rest : List HostEvent), s.inputs = .reset :: rest →
    ∃ s', step s = .next s' ∧
      (∀ (t : Nat) (tm : Timer), s.timers[t]? = some tm → ∃ tm', s'.timers[t]? = some tm' ∧
        tm'.kind = tm.kind ∧ tm'.cs = 0 ∧ tm'.wgm = 0 ∧
        ∀ ch, (regs tm' ch).com = 0 ∧ (regs tm' ch).ocr = 0 ∧ (regs tm' ch).ddr = false ∧
          (regs tm' ch).bound = false) ∧
      s'.timers.length = s.timers.length ∧
      s'.msg = { mstate := .idle, mptr := 0, mlen := 0, mcur := 0, mck := 0 } ∧
      s'.response = none ∧ s'.attempts = s.attempts ∧ wireOf s' = wireOf s ∧
      (∀ a, s'.mem.read a = s.mem.read a)

/-- 20 section 9 (R53, the spec's decision D15): a host write changes the byte it names, which every
later read sees, and no register: the checksum stays as it was formed. -/
def Obligations.HostWriteIsSeen : Prop :=
  ∀ (s : State) (addr : Addr) (b : Byte) (rest : List HostEvent), s.mem.wf = true →
    s.inputs = .memWrite addr b :: rest →
    ∃ s', step s = .next s' ∧
      (∀ a, s'.mem.read a = if a = addr then b else s.mem.read a) ∧
      s'.timers = s.timers ∧ s'.msg = s.msg ∧ s'.attempts = s.attempts ∧ s'.answers = s.answers

/-! ### Legality and the response -/

/-- 30 section 5 (R63, the spec's decisions D3, D7, D8, D11, D17, D23): `illegal()` is the outcome in
exactly the cases I1 to I6, and then nothing but the response changes. -/
def Obligations.IllegalExactlySixCases : Prop :=
  ∀ (s : State) (w : CmdWord) (rest : List HostEvent), s.inputs = .command w :: rest →
    ((Reserved w ∨ ∃ i, decode w = .ok i ∧ IllegalCommand s i) →
      step s = .next (illegalState { s with inputs := rest })) ∧
    (¬ (Reserved w ∨ ∃ i, decode w = .ok i ∧ IllegalCommand s i) →
      ∃ s' done, step s = .next s' ∧ Responds s' done)

/-- 30 section 4 (R62, the spec's decision D7): the two bits of the response to every command, and that it
is not stored: a step does not read it. -/
def Obligations.ResponseBits : Prop :=
  ∀ (s : State) (w : CmdWord) (rest : List HostEvent), s.inputs = .command w :: rest →
    ∃ s' r, step s = .next s' ∧ s'.response = some r ∧
      (r.done = true ↔
        decode w = .ok .msgStep ∧ s.msg.mstate = .endMark ∧ s.nextAnswer = true) ∧
      (r.illegal = true ↔ (Reserved w ∨ ∃ i, decode w = .ok i ∧ IllegalCommand s i)) ∧
      (r.illegal = true → r.done = false) ∧
      ∀ old, step { s with response := old } = .next s'

/-! ### Selection and the hint commands -/

/-- 40 section 1 (R76; the end of the table R77, the spec's decision D10, notes/assumptions/16.md): the
scan takes the first entry that exceeds `D` (fast-PWM) or whose double does (phase-correct), tested in
this order, for every table; off the end it is phase-correct at the last index. -/
def Obligations.SelectScansAsReplicated : Prop :=
  (∀ (d : Nat) (T : List Nat) (k : Nat) (e : Nat), T[k]? = some e →
    (∀ j e', j < k → T[j]? = some e' → e' ≤ d ∧ 2 * e' ≤ d) →
    (e > d → select d T = (.fast, k)) ∧
    (e ≤ d → 2 * e > d → select d T = (.pc, k))) ∧
  (∀ (d : Nat) (T : List Nat), T ≠ [] → (∀ e' ∈ T, e' ≤ d ∧ 2 * e' ≤ d) →
    select d T = (.pc, T.length - 1))

/-- 40 section 1 (R82, derived there; R77, the spec's decision D10, notes/assumptions/16.md; the table
of a 16-bit timer is its decision D4, notes/assumptions/15.md): the result of `Select` by ranges of `D`;
the scan falls off the end exactly for `D >= 2048`; on the 7-entry table fast-PWM never lands at index
3, 4 or 5. -/
def Obligations.SelectByRanges : Prop :=
  ∀ d : Nat,
    select d (divisorTable .t8_5) = ranges5 d ∧
    select d (divisorTable .t16) = ranges5 d ∧
    select d (divisorTable .t8_7) = ranges7 d ∧
    (∀ k, select d (divisorTable .t8_7) = (.fast, k) → k ∉ [3, 4, 5]) ∧
    ∀ kind, (∀ e ∈ table kind, e ≤ d ∧ 2 * e ≤ d) ↔ 2048 ≤ d

/-- 10 section 2 (R16, R17: the bit patterns are the spec's decision D5, from general knowledge,
notes/assumptions/12.md): the pattern of every waveform mode on every kind of timer that has it, and
that a pattern names at most one mode; the compare-output patterns. -/
def Obligations.PatternsNameModes : Prop :=
  (∀ kind m w, (kind = .t16 ∨ w = .w8) → wavePattern kind (.free m w) = some (freePattern kind m w)) ∧
  (∀ kind, wavePattern kind .normal = some 0b0000) ∧
  (∀ kind, kind ≠ .t16 → wavePattern kind (.ocra .pc) = some 0b0101 ∧
    wavePattern kind (.ocra .fast) = some 0b0111) ∧
  wavePattern .t16 (.ocra .pc) = some 0b1011 ∧ wavePattern .t16 (.ocra .fast) = some 0b1111 ∧
  (∀ kind p m, waveName kind p = some m ↔ wavePattern kind m = some p) ∧
  [ComMode.normal, .toggle, .clear, .set].map ComMode.pattern = [0b00, 0b01, 0b10, 0b11]

/-- 40 section 1 (R78; on a 16-bit timer the table is the spec's decision D4, notes/assumptions/15.md):
a hint command with a non-zero frequency writes `CS[t]` with index + 1 and `WGM[t]` with the
free-running mode chosen, for every width and every kind of timer that has it, and nothing else. The end
of the table is decision D10, notes/assumptions/16.md; a pattern names a mode by decision D5,
notes/assumptions/12.md. -/
def Obligations.HintProgramsClockAndWave : Prop :=
  ∀ (w : CounterWidth) (s : State) (t : Nat) (ch : Channel) (f cpu : BitVec 32) (tm : Timer)
    (m : PwmMode) (k : Nat),
    BoundAt s t ch tm → WidthFits w tm → f ≠ 0 →
    select (quotient cpu f w) (table tm.kind) = (m, k) →
    ∃ s' tm', exec (hintCommand w t ch f cpu) s = .next s' ∧ s'.timers[t]? = some tm' ∧
      tm'.cs.toNat = k + 1 ∧ waveName tm.kind tm'.wgm = some (.free m w) ∧
      tm'.kind = tm.kind ∧ tm'.chanA = tm.chanA ∧ tm'.chanB = tm.chanB ∧
      Responds s' false ∧ s'.pwmDraws = s.pwmDraws ∧ PwmFrame t s s'

/-- 40 section 3 (R83), 41 (R96), the spec's decision D9: a zero frequency is not detected; the
registers the command would write receive a value that no rule fixes, nothing else changes, the response
is `{0, 0}`. -/
def Obligations.ZeroFrequencyLeavesOpenValues : Prop :=
  (∀ (w : CounterWidth) (s : State) (t : Nat) (ch : Channel) (cpu : BitVec 32) (tm : Timer),
    BoundAt s t ch tm → WidthFits w tm →
    ∃ s' cs wgm, exec (hintCommand w t ch 0 cpu) s = .next s' ∧
      s'.timers[t]? = some { tm with cs := cs, wgm := wgm } ∧
      Responds s' false ∧ PwmFrame t s s') ∧
  (∀ (s : State) (t : Nat) (ch : Channel) (cpu : BitVec 32) (tm : Timer),
    BoundAt s t ch tm → tm.kind ≠ .t16 →
    ∃ s' cs wgm, ∃ top : BitVec 8, exec (.pwmExact t ch 0 cpu) s = .next s' ∧
      s'.timers[t]? = some { tm with
        cs := cs, wgm := wgm, chanA := { tm.chanA with ocr := top.setWidth 16 } } ∧
      Responds s' false ∧ PwmFrame t s s')

/-- 40 section 3 (R84; on a 16-bit timer the table is the spec's decision D4, notes/assumptions/15.md; a
pattern names a mode by its decision D5, notes/assumptions/12.md): above the maximum the result is
fast-PWM with prescaler 1; it is not an error. -/
def Obligations.AboveMaximumUsesPrescalerOne : Prop :=
  ∀ (w : CounterWidth) (s : State) (t : Nat) (ch : Channel) (f cpu : BitVec 32) (tm : Timer),
    BoundAt s t ch tm → WidthFits w tm → f.toNat > cpu.toNat / 2 ^ w.bits →
    quotient cpu f w = 0 ∧ select 0 (table tm.kind) = (.fast, 0) ∧
    ∃ s' tm', exec (hintCommand w t ch f cpu) s = .next s' ∧ s'.timers[t]? = some tm' ∧
      tm'.cs = 1 ∧ (table tm.kind)[0]? = some 1 ∧ waveName tm.kind tm'.wgm = some (.free .fast w) ∧
      Responds s' false

/-- 40 section 3 (R85; on a 16-bit timer the table is the spec's decision D4, notes/assumptions/15.md;
the mode is read through the patterns of its decision D5, notes/assumptions/12.md): for `D < 2048` the
effective divisor `E` the registers show makes the frequency `cpu / (E * 2^W)` strictly below the
request, and `E` is the smallest table value or double that exceeds `D`. -/
def Obligations.HintFrequencyStrictlyBelow : Prop :=
  ∀ (w : CounterWidth) (s : State) (t : Nat) (ch : Channel) (f cpu : BitVec 32) (tm : Timer),
    BoundAt s t ch tm → WidthFits w tm → f ≠ 0 → quotient cpu f w < 2048 →
    ∃ s' tm' e, exec (hintCommand w t ch f cpu) s = .next s' ∧ s'.timers[t]? = some tm' ∧
      Effective tm' (freePattern tm.kind .pc w) e ∧
      cpu.toNat < e * 2 ^ w.bits * f.toNat ∧
      ∀ x ∈ table tm.kind,
        (quotient cpu f w < x → e ≤ x) ∧ (quotient cpu f w < 2 * x → e ≤ 2 * x)

/-! ### The exact command -/

/-- 41 (R90, R93; case 1 first by the spec's decision D28, the mode patterns by D5,
notes/assumptions/12.md, the end of the table in case 4 by D10, notes/assumptions/16.md): the four
cases, each with its condition, mode, clock-select and top; the top goes to compare register A, nothing
else changes. -/
def Obligations.ExactFourCases : Prop :=
  ∀ (s : State) (t : Nat) (ch : Channel) (f cpu : BitVec 32) (tm : Timer) (m : PwmMode) (k : Nat),
    BoundAt s t ch tm → tm.kind ≠ .t16 → f ≠ 0 →
    select (quotient cpu f .w8) (table tm.kind) = (m, k) →
    ∃ s' tm', exec (.pwmExact t ch f cpu) s = .next s' ∧ s'.timers[t]? = some tm' ∧
      (quotient cpu f .w8 = 0 →
        tm'.wgm = 0b0111 ∧ tm'.cs.toNat = 1 ∧
        tm'.chanA.ocr.toNat = cpu.toNat / (f.toNat * (table tm.kind).getD 0 0)) ∧
      (quotient cpu f .w8 ≠ 0 → m = .fast →
        tm'.wgm = 0b0101 ∧ tm'.cs.toNat = k + 1 ∧
        tm'.chanA.ocr.toNat = cpu.toNat / (f.toNat * (2 * (table tm.kind).getD k 0))) ∧
      (quotient cpu f .w8 ≠ 0 → m = .pc → k + 1 < (table tm.kind).length →
        tm'.wgm = 0b0111 ∧ tm'.cs.toNat = k + 2 ∧
        tm'.chanA.ocr.toNat = cpu.toNat / (f.toNat * (table tm.kind).getD (k + 1) 0)) ∧
      (quotient cpu f .w8 ≠ 0 → m = .pc → k + 1 = (table tm.kind).length →
        tm'.wgm = 0b0101 ∧ tm'.cs.toNat = (table tm.kind).length ∧ tm'.chanA.ocr.toNat = 255) ∧
      tm'.chanA = { tm.chanA with ocr := tm'.chanA.ocr } ∧ tm'.chanB = tm.chanB ∧
      tm'.kind = tm.kind ∧ Responds s' false ∧ s'.pwmDraws = s.pwmDraws ∧ PwmFrame t s s'

/-- 41 (R94, R92; case 1 first by the spec's decision D28, the end of the table in case 4 by D10,
notes/assumptions/16.md): the range of the top in `OCR[t][A]` in each case; the 8-bit write never
truncates the computed top, and the product it is computed from stays below `2^32`. -/
def Obligations.ExactTopRange : Prop :=
  ∀ (s : State) (t : Nat) (ch : Channel) (f cpu : BitVec 32) (tm : Timer) (m : PwmMode) (k : Nat),
    BoundAt s t ch tm → tm.kind ≠ .t16 → f ≠ 0 →
    select (quotient cpu f .w8) (table tm.kind) = (m, k) →
    ∃ s' tm', exec (.pwmExact t ch f cpu) s = .next s' ∧ s'.timers[t]? = some tm' ∧
      tm'.chanA.ocr.toNat = (exactChoice cpu f (divisorTable tm.kind)).top ∧
      (quotient cpu f .w8 = 0 →
        tm'.chanA.ocr.toNat ≤ 255 ∧ (tm'.chanA.ocr.toNat = 0 ↔ f.toNat > cpu.toNat) ∧
        f.toNat * (table tm.kind).getD 0 0 = f.toNat) ∧
      (quotient cpu f .w8 ≠ 0 → m = .fast →
        32 ≤ tm'.chanA.ocr.toNat ∧ tm'.chanA.ocr.toNat ≤ 127 ∧
        f.toNat * (2 * (table tm.kind).getD k 0) < 2 ^ 32) ∧
      (quotient cpu f .w8 ≠ 0 → m = .pc → k + 1 < (table tm.kind).length →
        32 ≤ tm'.chanA.ocr.toNat ∧ tm'.chanA.ocr.toNat ≤ 255 ∧
        f.toNat * (table tm.kind).getD (k + 1) 0 < 2 ^ 32) ∧
      (quotient cpu f .w8 ≠ 0 → m = .pc → k + 1 = (table tm.kind).length →
        tm'.chanA.ocr.toNat = 255)

/-- 41 (R95): for cases 1 to 3 (`D < 1024`) the top the registers show, fed back with the effective
divisor the registers show, reproduces the request within the rounding of the top. -/
def Obligations.ExactTopFedBack : Prop :=
  ∀ (s : State) (t : Nat) (ch : Channel) (f cpu : BitVec 32) (tm : Timer),
    BoundAt s t ch tm → tm.kind ≠ .t16 → f ≠ 0 → quotient cpu f .w8 < 1024 →
    ∃ s' tm' e, exec (.pwmExact t ch f cpu) s = .next s' ∧ s'.timers[t]? = some tm' ∧
      Effective tm' 0b0101 e ∧
      e * tm'.chanA.ocr.toNat * f.toNat ≤ cpu.toNat ∧
      cpu.toNat < e * (tm'.chanA.ocr.toNat + 1) * f.toNat

/-- 41 (R91, the spec's decision D11): on a 16-bit timer `PWM.EXACT` is `illegal()`, so the OCRA
patterns of a 16-bit timer are never written by it. -/
def Obligations.ExactRefusedOnSixteenBit : Prop :=
  ∀ (s : State) (t : Nat) (ch : Channel) (f cpu : BitVec 32) (tm : Timer),
    s.timers[t]? = some tm → tm.kind = .t16 →
    exec (.pwmExact t ch f cpu) s = .next (illegalState s)

/-! ### Duty, init, close -/

/-- 42 (R100, R101, the spec's decision D12): the low `CW` bits of the operand are written to the
channel's own compare register, the bits above have no effect; nothing else changes. -/
def Obligations.DutyWritesLowBits : Prop :=
  ∀ (s : State) (t : Nat) (ch : Channel) (v : BitVec 32) (tm : Timer), BoundAt s t ch tm →
    ∃ s' tm', exec (.pwmDuty t ch v) s = .next s' ∧ s'.timers[t]? = some tm' ∧
      (regs tm' ch).ocr.toNat = v.toNat % 2 ^ compareBits tm.kind ∧
      regs tm' ch = { regs tm ch with ocr := (regs tm' ch).ocr } ∧
      regs tm' (other ch) = regs tm (other ch) ∧
      tm'.kind = tm.kind ∧ tm'.cs = tm.cs ∧ tm'.wgm = tm.wgm ∧
      Responds s' false ∧ s'.pwmDraws = s.pwmDraws ∧ PwmFrame t s s'

/-- 43 (R105; that the non-inverting mode is `CLEAR`, pattern 0b10, is the spec's decision D5,
notes/assumptions/12.md): `PWM.INIT` on a timer that exists makes the pin an output, sets `COM` to `CLEAR`
and binds, and changes nothing else. -/
def Obligations.InitBindsChannel : Prop :=
  ∀ (s : State) (t : Nat) (ch : Channel) (tm : Timer), s.timers[t]? = some tm →
    ∃ s' tm', exec (.pwmInit t ch) s = .next s' ∧ s'.timers[t]? = some tm' ∧
      regs tm' ch = { com := 0b10, ocr := (regs tm ch).ocr, ddr := true, bound := true } ∧
      regs tm' (other ch) = regs tm (other ch) ∧
      tm'.kind = tm.kind ∧ tm'.cs = tm.cs ∧ tm'.wgm = tm.wgm ∧
      Responds s' false ∧ s'.pwmDraws = s.pwmDraws ∧ PwmFrame t s s'

/-- 43 (R106, the spec's decision D22): `PWM.INIT` is legal whatever the pair's state, a second one
changes nothing, and after a `PWM.CLOSE` it sets `COM` back to `CLEAR` without restoring `CS` or `WGM`.
-/
def Obligations.InitAgainIsHarmless : Prop :=
  ∀ (s : State) (t : Nat) (ch : Channel), t < s.timers.length →
    ∃ s1, exec (.pwmInit t ch) s = .next s1 ∧ Responds s1 false ∧
      exec (.pwmInit t ch) s1 = .next s1 ∧
      ∃ s2 s3 tm3, exec (.pwmClose t ch) s1 = .next s2 ∧ exec (.pwmInit t ch) s2 = .next s3 ∧
        Responds s3 false ∧ s3.timers[t]? = some tm3 ∧ (regs tm3 ch).com = 0b10 ∧
        tm3.cs = 0 ∧ tm3.wgm = 0b0000

/-- 43 (R107, R110): `PWM.CLOSE` detaches its own channel, sets plain counting and disables the clock of
the timer, and changes nothing else: the other channel's `COM` stays. -/
def Obligations.CloseStopsTimer : Prop :=
  ∀ (s : State) (t : Nat) (ch : Channel) (tm : Timer), BoundAt s t ch tm →
    ∃ s' tm', exec (.pwmClose t ch) s = .next s' ∧ s'.timers[t]? = some tm' ∧
      tm'.cs = 0 ∧ tm'.wgm = 0b0000 ∧
      regs tm' ch = { regs tm ch with com := 0b00 } ∧
      regs tm' (other ch) = regs tm (other ch) ∧ tm'.kind = tm.kind ∧
      Responds s' false ∧ s'.pwmDraws = s.pwmDraws ∧ PwmFrame t s s'

/-- 43 (R108): closing twice is closing once, in every state. -/
def Obligations.CloseTwiceIsOnce : Prop :=
  ∀ (s s1 : State) (t : Nat) (ch : Channel), exec (.pwmClose t ch) s = .next s1 →
    exec (.pwmClose t ch) s1 = .next s1

/-- 43 (R109, the spec's decision D21): after a close every command is exactly as legal as before; a
frequency command starts the timer again, with the waveform still detached until a `PWM.INIT` attaches
it. -/
def Obligations.CloseKeepsBinding : Prop :=
  ∀ (s s1 : State) (t : Nat) (ch : Channel) (tm : Timer), BoundAt s t ch tm →
    exec (.pwmClose t ch) s = .next s1 →
    (∀ i, IllegalCommand s1 i ↔ IllegalCommand s i) ∧
    (∀ f cpu i, f ≠ 0 → i ∈ frequencyCommands t ch f cpu → ¬ IllegalCommand s1 i →
      ∃ s2 tm2, exec i s1 = .next s2 ∧ s2.timers[t]? = some tm2 ∧
        tm2.cs ≠ 0 ∧ tm2.wgm ≠ 0b0000 ∧ (regs tm2 ch).com = 0b00 ∧
        ∃ s3 tm3, exec (.pwmInit t ch) s2 = .next s3 ∧ s3.timers[t]? = some tm3 ∧
          (regs tm3 ch).com = 0b10)

/-! ### Whole-machine rules -/

/-- 10 section 2 (R14): no command on timer `t` changes a timer `u != t`, and no `MSG.*` command changes
any. -/
def Obligations.CommandsTouchOneTimer : Prop :=
  ∀ (i : Instr) (s s' : State), exec i s = .next s' →
    s'.timers.length = s.timers.length ∧
    ∀ u, (∀ ch, pairOf i ≠ some (u, ch)) → s'.timers[u]? = s.timers[u]?

/-- 44 section 3 (R129), 20 (R40): the two units share no state, and no command writes memory. -/
def Obligations.UnitsShareNoState : Prop :=
  ∀ (i : Instr) (s s' : State), exec i s = .next s' →
    s'.mem = s.mem ∧ s'.inputs = s.inputs ∧
    (isPwm i = true → s'.msg = s.msg ∧ s'.attempts = s.attempts ∧ s'.answers = s.answers ∧
      s'.acceptDraws = s.acceptDraws) ∧
    (isPwm i = false → s'.timers = s.timers ∧ s'.pwmDraws = s.pwmDraws)

/-- 60 section 9 (R140, the spec's decision D24): what a unit does depends on its own state alone; two
runs that differ in the other unit's state cannot be told apart by it. -/
def Obligations.UnitsDoNotObserveEachOther : Prop :=
  (∀ (i : Instr) (s1 s2 s1' s2' : State), isPwm i = true →
    s1.timers = s2.timers → s1.pwmDraws = s2.pwmDraws →
    exec i s1 = .next s1' → exec i s2 = .next s2' →
    s1'.timers = s2'.timers ∧ s1'.pwmDraws = s2'.pwmDraws ∧ s1'.response = s2'.response) ∧
  (∀ (i : Instr) (s1 s2 s1' s2' : State), isPwm i = false →
    s1.msg = s2.msg → s1.mem = s2.mem → s1.answers = s2.answers → s1.attempts = s2.attempts →
    s1.acceptDraws = s2.acceptDraws →
    exec i s1 = .next s1' → exec i s2 = .next s2' →
    s1'.msg = s2'.msg ∧ s1'.answers = s2'.answers ∧ s1'.attempts = s2'.attempts ∧
    s1'.acceptDraws = s2'.acceptDraws ∧ s1'.response = s2'.response)

/-- 10 section 7 (R31): which commands write which register, for every register of the block. -/
def Obligations.RegisterWriters : Prop :=
  ∀ (i : Instr) (s s' : State), exec i s = .next s' →
    (∀ (t : Nat) (tm tm' : Timer), s.timers[t]? = some tm → s'.timers[t]? = some tm' →
      tm'.kind = tm.kind ∧
      (tm'.cs ≠ tm.cs → writesClock t i) ∧
      (tm'.wgm ≠ tm.wgm → writesClock t i) ∧
      ∀ ch,
        ((regs tm' ch).com ≠ (regs tm ch).com → writesCom t ch i) ∧
        ((regs tm' ch).ocr ≠ (regs tm ch).ocr → writesOcr t ch i) ∧
        ((regs tm' ch).ddr ≠ (regs tm ch).ddr → writesBinding t ch i) ∧
        ((regs tm' ch).bound ≠ (regs tm ch).bound → writesBinding t ch i)) ∧
    (s'.msg.mstate ≠ s.msg.mstate → isMsgInit i = true ∨ i = .msgStep) ∧
    (s'.msg.mcur ≠ s.msg.mcur → isMsgInit i = true ∨ i = .msgStep) ∧
    (s'.msg.mptr ≠ s.msg.mptr → isMsgInit i = true) ∧
    (s'.msg.mlen ≠ s.msg.mlen → isMsgInit i = true) ∧
    (s'.msg.mck ≠ s.msg.mck → isMsgInit i = true)

/-- 10 section 2 (R21): no value written depends on the current value of a Timer Register Model register:
between two timers of the same kind and bindings, a command keeps a register on both or writes the same
value to both. -/
def Obligations.WrittenValuesFromOperands : Prop :=
  ∀ (i : Instr) (s s2 s' s2' : State) (t : Nat) (ch : Channel) (tm tm2 tm' tm2' : Timer),
    pairOf i = some (t, ch) → s.timers[t]? = some tm → s2.timers[t]? = some tm2 →
    SameWiring tm tm2 → s.pwmDraws = s2.pwmDraws →
    exec i s = .next s' → exec i s2 = .next s2' →
    s'.timers[t]? = some tm' → s2'.timers[t]? = some tm2' →
    KeptOrSame (·.cs) tm tm2 tm' tm2' ∧ KeptOrSame (·.wgm) tm tm2 tm' tm2' ∧
    ∀ c, KeptOrSame (fun x => (regs x c).com) tm tm2 tm' tm2' ∧
      KeptOrSame (fun x => (regs x c).ocr) tm tm2 tm' tm2' ∧
      KeptOrSame (fun x => (regs x c).ddr) tm tm2 tm' tm2' ∧
      KeptOrSame (fun x => (regs x c).bound) tm tm2 tm' tm2'

/-- 20 R41: `MSG.INIT` reads the payload bytes alone, `MSG.STEP` in `DATA` with `MCUR < MLEN` one byte and
otherwise none, no `PWM.*` command any: on two memories that agree on these bytes a command does the
same, and none writes memory. -/
def Obligations.CommandsReadOnlyTheirBytes : Prop :=
  ∀ (i : Instr) (s s' : State) (other : Memory), exec i s = .next s' →
    (∀ ptr len, i = .msgInit ptr len →
      ∀ k, k < len.toNat → other.read (byteAddr ptr k) = s.mem.read (byteAddr ptr k)) →
    (i = .msgStep → s.msg.mstate = .data → s.msg.mcur.toNat < s.msg.mlen.toNat →
      other.read (byteAddr s.msg.mptr s.msg.mcur.toNat) =
        s.mem.read (byteAddr s.msg.mptr s.msg.mcur.toNat)) →
    exec i { s with mem := other } = .next { s' with mem := other } ∧ s'.mem = s.mem

/-! ### The message unit -/

/-- 44 sections 1 and 2 (R116, R117; legal in mid-frame by the spec's decision D20, the wrap of the
addresses by D25, notes/assumptions/25.md): after `MSG.INIT` `MCK` is the two's complement of the sum of
the payload bytes modulo 256, so that sum and checksum add up to 0; its special values. All five
registers are written, in every state; the transport is not touched. -/
def Obligations.MsgInitFormsChecksum : Prop :=
  (∀ (s : State) (ptr len : BitVec 16),
    ∃ s', exec (.msgInit ptr len) s = .next s' ∧
      s'.msg.mck.toNat = ((255 - sumMod s.mem ptr len) + 1) % 256 ∧
      s'.msg.mck.toNat = (256 - sumMod s.mem ptr len) % 256 ∧
      (sumMod s.mem ptr len + s'.msg.mck.toNat) % 256 = 0 ∧
      (len = 0 → s'.msg.mck = 0) ∧
      (sumMod s.mem ptr len = 0 → s'.msg.mck = 0) ∧
      (sumMod s.mem ptr len = 0x80 → s'.msg.mck = 0x80) ∧
      (sumMod s.mem ptr len = 1 → s'.msg.mck = 0xFF) ∧
      (sumMod s.mem ptr len = 0x83 → s'.msg.mck = 0x7D) ∧
      s'.msg = { mstate := .header, mptr := ptr, mlen := len, mcur := 0, mck := s'.msg.mck } ∧
      Responds s' false ∧ NotAttempted s s' ∧ MsgFrame s s')

/-- 44 section 1 (R119): the sixteen hex digits, lowercase (a sanity statement). -/
def Obligations.HexDigitsAreLowercase : Prop :=
  (List.range 16).map (fun v => hexDigit (BitVec.ofNat 4 v)) =
    [0x30, 0x31, 0x32, 0x33, 0x34, 0x35, 0x36, 0x37, 0x38, 0x39, 0x61, 0x62, 0x63, 0x64, 0x65, 0x66]

/-- 44 R120: the `HEADER` arm, and that a rejection leaves the same byte for the next `MSG.STEP`. -/
def Obligations.HeaderArm : Prop :=
  ∀ s : State, s.msg.mstate = .header →
    ArmAttempts s 0x3A .data false ∧
    ∀ s', exec .msgStep s = .next s' → s.nextAnswer = false → ArmAttempts s' 0x3A .data false

/-- 44 section 2 (R121; the empty payload by the spec's decision D18, the wrap of the address by D25,
notes/assumptions/25.md): the `DATA` arm: the next payload byte is read in this step and attempted, the
cursor advances on acceptance, and completion is tested after the attempt with the new cursor, accepted
or not; with `MCUR >= MLEN` (the empty payload) there is no attempt. The last byte's acceptance and the
move to `CKH` are one step, and a rejection stays in `DATA`. -/
def Obligations.DataArm : Prop :=
  ∀ s : State, s.msg.mstate = .data →
    (s.msg.mcur.toNat < s.msg.mlen.toNat →
      ∃ s', exec .msgStep s = .next s' ∧ MsgFrame s s' ∧ Responds s' false ∧
        Attempted (s.mem.read (byteAddr s.msg.mptr s.msg.mcur.toNat)) s s' ∧
        (s.nextAnswer = true →
          s'.msg.mcur.toNat = s.msg.mcur.toNat + 1 ∧
          s'.msg = { s.msg with
            mcur := s'.msg.mcur
            mstate := if s.msg.mcur.toNat + 1 = s.msg.mlen.toNat then .ckh else .data }) ∧
        (s.nextAnswer = false → s'.msg = s.msg)) ∧
    (s.msg.mlen.toNat ≤ s.msg.mcur.toNat →
      ∃ s', exec .msgStep s = .next s' ∧ MsgFrame s s' ∧ Responds s' false ∧
        NotAttempted s s' ∧ s'.msg = { s.msg with mstate := .ckh })

/-- 44 R122, R123: the two checksum arms, high nibble first. -/
def Obligations.ChecksumArms : Prop :=
  ∀ s : State,
    (s.msg.mstate = .ckh → ArmAttempts s (digit (s.msg.mck.toNat / 16)) .ckl false) ∧
    (s.msg.mstate = .ckl → ArmAttempts s (digit (s.msg.mck.toNat % 16)) .endMark false)

/-- 44 R124: the `END` arm: accepted, `SENT` and `done = 1`; the only place that produces `done = 1`. -/
def Obligations.EndArm : Prop :=
  (∀ s : State, s.msg.mstate = .endMark → ArmAttempts s 0x0A .sent true) ∧
  (∀ (i : Instr) (s s' : State), exec i s = .next s' → Responds s' true →
    i = .msgStep ∧ s.msg.mstate = .endMark ∧ s.nextAnswer = true)

/-- 44 section 2 (R126, the spec's decision D17): `MSG.STEP` with no frame in progress is `illegal()`; a
`MSG.INIT` makes it legal again. -/
def Obligations.StepWithoutFrameIsIllegal : Prop :=
  ∀ s : State, s.msg.mstate = .idle ∨ s.msg.mstate = .sent →
    exec .msgStep s = .next (illegalState s) ∧
    ∀ ptr len s1, exec (.msgInit ptr len) s = .next s1 →
      ∃ s2, exec .msgStep s1 = .next s2 ∧ Responds s2 false

/-- 44 R114: a `MSG.STEP` leaves `MSTATE` or moves it to the next state of the chain; only `MSG.INIT` (to
`HEADER`) and reset (to `IDLE`) move it otherwise. -/
def Obligations.StateChainOrder : Prop :=
  [MState.idle, .header, .data, .ckh, .ckl, .endMark, .sent].map (fun m => m.code.toNat) =
    [0, 1, 2, 3, 4, 5, 6] ∧
  ∀ s s' : State, step s = .next s' →
    s'.msg.mstate = s.msg.mstate ∨
    (∃ w rest, s.inputs = .command w :: rest ∧ decode w = .ok .msgStep ∧
      1 ≤ s.msg.mstate.code.toNat ∧ s'.msg.mstate.code.toNat = s.msg.mstate.code.toNat + 1) ∨
    (∃ w rest i, s.inputs = .command w :: rest ∧ decode w = .ok i ∧ isMsgInit i = true ∧
      s'.msg.mstate = .header) ∨
    (∃ rest, s.inputs = .reset :: rest ∧ s'.msg.mstate = .idle)

/-- 44 section 1 (R115; the empty payload by R121, the spec's decision D18, the wrap of the address by
D25, notes/assumptions/25.md): a `MSG.STEP` always ends at once, makes at most one attempt and at most
one payload read, and in a legal state of the message context exactly one attempt, except with the empty
payload in `DATA`. -/
def Obligations.OneAttemptPerStep : Prop :=
  ∀ s : State, s.msg.Inv →
    ∃ s', exec .msgStep s = .next s' ∧
      (NotAttempted s s' ∨ ∃ b, Attempted b s s') ∧
      (s.msg.mstate ≠ .idle → s.msg.mstate ≠ .sent →
        (s'.attempts = s.attempts ↔ s.msg.mstate = .data ∧ s.msg.mlen = 0)) ∧
      ∀ other : Memory,
        other.read (byteAddr s.msg.mptr s.msg.mcur.toNat) =
          s.mem.read (byteAddr s.msg.mptr s.msg.mcur.toNat) →
        exec .msgStep { s with mem := other } = .next { s' with mem := other }

/-- 20 section 7 (R51): attempts are only added at the end, one by a `MSG.STEP` and by nothing else, so
the order on the wire is the order of the commands. -/
def Obligations.WireGrowsInOrder : Prop :=
  ∀ s s' : State, step s = .next s' →
    s'.attempts = s.attempts ∨
    (∃ w rest b, s.inputs = .command w :: rest ∧ decode w = .ok .msgStep ∧
      s'.attempts = s.attempts ++ [{ byte := b, accepted := s.nextAnswer }] ∧
      wireOf s' = if s.nextAnswer then wireOf s ++ [b] else wireOf s)

/-- 44 section 3 (R127): a rejected attempt changes no message register and is reported as `done = 0`
only, in every state that makes an attempt: starvation is no error. -/
def Obligations.RejectionChangesNothing : Prop :=
  ∀ s : State, s.nextAnswer = false →
    s.msg.mstate ∈ [MState.header, .ckh, .ckl, .endMark] ∨
      (s.msg.mstate = .data ∧ s.msg.mcur.toNat < s.msg.mlen.toNat) →
    ∃ s', exec .msgStep s = .next s' ∧ s'.msg = s.msg ∧ wireOf s' = wireOf s ∧ Responds s' false

/-- 44 section 3 (R128; the wrap of payload addresses by the spec's decision D25,
notes/assumptions/25.md): from a `MSG.INIT` on, the wire is what it was, then the first bytes of the
frame, as many as the message context counts; every step keeps this, but for a new `MSG.INIT`, a host
write to a payload byte and a reset. -/
def Obligations.WireIsTheFrameSoFar : Prop :=
  (∀ (s s' : State) (ptr len : BitVec 16), exec (.msgInit ptr len) s = .next s' →
    FrameSoFar (wireOf s) s') ∧
  (∀ (base : List Byte) (s s' : State), s.msg.Inv → FrameSoFar base s → step s = .next s' →
    (∀ e, s.inputs.head? = some e → KeepsFrame s e) →
    FrameSoFar base s')

/-- 44 section 3 (R128; the extra step of the empty payload by the spec's decision D18, the wrap of
payload addresses by D25, notes/assumptions/25.md): whenever the transport's answers to come accept
`MLEN + 4` bytes, the last answer among them, driving `MSG.STEP` once per answer (once more for the
empty payload) puts exactly the frame on the wire and ends in `SENT` with `done = 1`, and no earlier
response has `done = 1`. -/
def Obligations.FrameCompletes : Prop :=
  ∀ (s : State) (given later : List Bool) (n : Nat),
    s.msg.mstate = .header → s.msg.mcur = 0 → s.answers = given ++ later →
    given.count true = s.msg.mlen.toNat + 4 → given.getLast? = some true →
    n = given.length + (if s.msg.mlen = 0 then 1 else 0) →
    (∃ s', drive n s = .next s' ∧ s'.msg.mstate = .sent ∧ Responds s' true ∧
      wireOf s' = wireOf s ++ frame s ∧ s'.answers = later) ∧
    ∀ k, 0 < k → k < n → ∃ s', drive k s = .next s' ∧ Responds s' false

/-! ### Invariants -/

/-- 00 R6, 10 R17, R18, 44 R125: the invariant of the state holds after reset. -/
def Obligations.ResetMeetsInvariant : Prop := State.reset.Inv

/-- 10 R17, R18, 44 section 3 (R125), 43 R105: every step keeps the invariant: one to eight timers,
compare registers that fit their width, `COM` normal, or clear on a bound channel, the pin an output
exactly when bound, the invariants of the message context alone, and memory in canonical form. The
fourth invariant of R125, on `MCK`, is `Obligations.ChecksumStaysFormed`. -/
def Obligations.StepKeepsInvariant : Prop :=
  ∀ s s' : State, s.Inv → step s = .next s' → s'.Inv

/-- 70 section 4 (R163), 10 (R15, R16; the patterns by the spec's decision D5, notes/assumptions/12.md,
the table of a 16-bit timer by D4, notes/assumptions/15.md): a zero frequency is the only operand that
makes register contents unspecified: while the event taken honours the contract, every `CS` stays 0 or
selects a table entry and every `WGM` stays a named mode. -/
def Obligations.ContractKeepsNamedModes : Prop :=
  ∀ s s' : State, s.Named → (∀ e, s.inputs.head? = some e → e.honoursContract = true) →
    step s = .next s' → s'.Named

/-- 44 section 3 (R125, the fourth invariant, derived there; the reset state by the spec's decision D6,
notes/assumptions/14.md, the wrap of payload addresses by D25, notes/assumptions/25.md): with a frame in
progress or complete `MCK` is the checksum of the payload. It holds after reset; every step keeps it,
but a host write to a payload byte; and a step changes `MCK`, `MPTR` or `MLEN` only as `MSG.INIT`, from
the bytes as they are then, or as a reset, so that `MCK` stays the checksum of the bytes as they were at
the `MSG.INIT`. -/
def Obligations.ChecksumStaysFormed : Prop :=
  State.reset.ChecksumFormed ∧
  (∀ s s' : State, s.ChecksumFormed → step s = .next s' →
    (∀ addr b, s.inputs.head? = some (.memWrite addr b) → s.mem.wf = true ∧ ¬ PayloadByte s addr) →
    s'.ChecksumFormed) ∧
  (∀ s s' : State, step s = .next s' →
    (s'.msg.mck = s.msg.mck ∧ s'.msg.mptr = s.msg.mptr ∧ s'.msg.mlen = s.msg.mlen) ∨
    (∃ w rest ptr len, s.inputs = .command w :: rest ∧ decode w = .ok (.msgInit ptr len) ∧
      s'.msg.mck = checksumOf (payloadSum s.mem ptr len.toNat) ∧ s'.msg.mptr = ptr ∧
      s'.msg.mlen = len) ∨
    (∃ rest, s.inputs = .reset :: rest ∧ s'.msg.mstate = .idle))
end

