-- ==== Sys2Proof/Laws/Decode.lean ====
section
/-! SUPPORT. Each field of a word put together by `cmdWord` is the part it was made of, and what the
must-be-zero test can answer. -/

namespace Sys2Proof

@[simp] theorem fieldOp_cmdWord (op sel : BitVec 8) (a b : BitVec 32) :
    fieldOp (cmdWord op sel a b) = op := by
  ext i hi
  simp [fieldOp, cmdWord]
  grind

@[simp] theorem fieldSel_cmdWord (op sel : BitVec 8) (a b : BitVec 32) :
    fieldSel (cmdWord op sel a b) = sel := by
  ext i hi
  simp [fieldSel, cmdWord]
  grind

@[simp] theorem fieldA_cmdWord (op sel : BitVec 8) (a b : BitVec 32) :
    fieldA (cmdWord op sel a b) = a := by
  ext i hi
  simp [fieldA, cmdWord]
  grind

@[simp] theorem fieldB_cmdWord (op sel : BitVec 8) (a b : BitVec 32) :
    fieldB (cmdWord op sel a b) = b := by
  ext i hi
  simp [fieldB, cmdWord]
  grind

/-- `rsv`, `t` and `ch` are parts of `sel`. -/
theorem fieldRsv_eq_sel (w : CmdWord) : fieldRsv w = (fieldSel w).extractLsb' 4 4 := by
  ext i hi
  simp [fieldRsv, fieldSel]
  grind

theorem fieldT_eq_sel (w : CmdWord) : fieldT w = (fieldSel w).extractLsb' 1 3 := by
  ext i hi
  simp [fieldT, fieldSel]
  grind

theorem fieldCh_eq_sel (w : CmdWord) : fieldCh w = (fieldSel w).extractLsb' 0 1 := by
  ext i hi
  simp [fieldCh, fieldSel]
  grind

/-- The halves of the operands that `MSG.INIT` reads and tests. -/
theorem fieldAHi_eq (w : CmdWord) : fieldAHi w = (fieldA w).extractLsb' 16 16 := by
  ext i hi
  simp [fieldAHi, fieldA]
  grind

theorem fieldPtr_eq (w : CmdWord) : fieldPtr w = (fieldA w).extractLsb' 0 16 := by
  ext i hi
  simp [fieldPtr, fieldA]
  grind

theorem fieldBHi_eq (w : CmdWord) : fieldBHi w = (fieldB w).extractLsb' 16 16 := by
  ext i hi
  simp [fieldBHi, fieldB]

theorem fieldLen_eq (w : CmdWord) : fieldLen w = (fieldB w).extractLsb' 0 16 := by
  ext i hi
  simp [fieldLen, fieldB]

/-- `sel` of a `PWM.*` word: its reserved bits are zero and its parts are the operands. -/
theorem selOf_rsv (t : Nat) (ch : Channel) : (selOf t ch).extractLsb' 4 4 = 0 := by
  ext i hi
  simp [selOf]
  grind

theorem selOf_t (t : Nat) (ch : Channel) : (selOf t ch).extractLsb' 1 3 = BitVec.ofNat 3 t := by
  ext i hi
  simp [selOf]
  grind

theorem selOf_ch (t : Nat) (ch : Channel) : (selOf t ch).extractLsb' 0 1 = channelBit ch := by
  ext i hi
  simp [selOf]
  grind

@[simp] theorem channelOf_channelBit (ch : Channel) : channelOf (channelBit ch) = ch := by
  cases ch <;> rfl

@[simp] theorem channelBit_channelOf (c : BitVec 1) : channelBit (channelOf c) = c := by
  revert c; decide

/-- What `whenZero` can answer. -/
theorem whenZero_ok {ok : Bool} {i j : Instr} (h : whenZero ok i = .ok j) : ok = true ∧ j = i := by
  cases ok
  · simp [whenZero] at h
  · simpa [whenZero, eq_comm] using h

/-- A word is the word made of its four fields (30 R55). -/
theorem cmdWord_fields (w : CmdWord) : cmdWord (fieldOp w) (fieldSel w) (fieldA w) (fieldB w) = w := by
  ext i hi
  simp [cmdWord, fieldOp, fieldSel, fieldA, fieldB]
  grind

end Sys2Proof
end

