-- ==== Sys2Proof/Laws/State.lean ====
section
/-! SUPPORT. One lemma per field per update of the state and of a timer, so that no later proof unfolds
a record update. -/

namespace Sys2Proof.Machine

/-! ### `setTimer` -/

@[simp] theorem State.setTimer_timers (s : State) (t : Nat) (tm : Timer) :
    (s.setTimer t tm).timers = s.timers.set t tm := rfl
@[simp] theorem State.setTimer_msg (s : State) (t : Nat) (tm : Timer) :
    (s.setTimer t tm).msg = s.msg := rfl
@[simp] theorem State.setTimer_mem (s : State) (t : Nat) (tm : Timer) :
    (s.setTimer t tm).mem = s.mem := rfl
@[simp] theorem State.setTimer_inputs (s : State) (t : Nat) (tm : Timer) :
    (s.setTimer t tm).inputs = s.inputs := rfl
@[simp] theorem State.setTimer_answers (s : State) (t : Nat) (tm : Timer) :
    (s.setTimer t tm).answers = s.answers := rfl
@[simp] theorem State.setTimer_attempts (s : State) (t : Nat) (tm : Timer) :
    (s.setTimer t tm).attempts = s.attempts := rfl
@[simp] theorem State.setTimer_response (s : State) (t : Nat) (tm : Timer) :
    (s.setTimer t tm).response = s.response := rfl
@[simp] theorem State.setTimer_pwmDraws (s : State) (t : Nat) (tm : Timer) :
    (s.setTimer t tm).pwmDraws = s.pwmDraws := rfl
@[simp] theorem State.setTimer_acceptDraws (s : State) (t : Nat) (tm : Timer) :
    (s.setTimer t tm).acceptDraws = s.acceptDraws := rfl

/-! ### `takeInput` -/

@[simp] theorem State.takeInput_timers (s : State) (rest : List HostEvent) :
    (s.takeInput rest).timers = s.timers := rfl
@[simp] theorem State.takeInput_msg (s : State) (rest : List HostEvent) :
    (s.takeInput rest).msg = s.msg := rfl
@[simp] theorem State.takeInput_mem (s : State) (rest : List HostEvent) :
    (s.takeInput rest).mem = s.mem := rfl
@[simp] theorem State.takeInput_inputs (s : State) (rest : List HostEvent) :
    (s.takeInput rest).inputs = rest := rfl
@[simp] theorem State.takeInput_answers (s : State) (rest : List HostEvent) :
    (s.takeInput rest).answers = s.answers := rfl
@[simp] theorem State.takeInput_attempts (s : State) (rest : List HostEvent) :
    (s.takeInput rest).attempts = s.attempts := rfl
@[simp] theorem State.takeInput_response (s : State) (rest : List HostEvent) :
    (s.takeInput rest).response = s.response := rfl
@[simp] theorem State.takeInput_pwmDraws (s : State) (rest : List HostEvent) :
    (s.takeInput rest).pwmDraws = s.pwmDraws := rfl
@[simp] theorem State.takeInput_acceptDraws (s : State) (rest : List HostEvent) :
    (s.takeInput rest).acceptDraws = s.acceptDraws := rfl

/-! ### `countPwmDraw` -/

@[simp] theorem State.countPwmDraw_timers (s : State) :
    (s.countPwmDraw).timers = s.timers := rfl
@[simp] theorem State.countPwmDraw_msg (s : State) :
    (s.countPwmDraw).msg = s.msg := rfl
@[simp] theorem State.countPwmDraw_mem (s : State) :
    (s.countPwmDraw).mem = s.mem := rfl
@[simp] theorem State.countPwmDraw_inputs (s : State) :
    (s.countPwmDraw).inputs = s.inputs := rfl
@[simp] theorem State.countPwmDraw_answers (s : State) :
    (s.countPwmDraw).answers = s.answers := rfl
@[simp] theorem State.countPwmDraw_attempts (s : State) :
    (s.countPwmDraw).attempts = s.attempts := rfl
@[simp] theorem State.countPwmDraw_response (s : State) :
    (s.countPwmDraw).response = s.response := rfl
@[simp] theorem State.countPwmDraw_pwmDraws (s : State) :
    (s.countPwmDraw).pwmDraws = s.pwmDraws + 1 := rfl
@[simp] theorem State.countPwmDraw_acceptDraws (s : State) :
    (s.countPwmDraw).acceptDraws = s.acceptDraws := rfl

/-! ### `setMState` -/

@[simp] theorem State.setMState_timers (s : State) (m : MState) :
    (s.setMState m).timers = s.timers := rfl
@[simp] theorem State.setMState_msg (s : State) (m : MState) :
    (s.setMState m).msg = { s.msg with mstate := m } := rfl
@[simp] theorem State.setMState_mem (s : State) (m : MState) :
    (s.setMState m).mem = s.mem := rfl
@[simp] theorem State.setMState_inputs (s : State) (m : MState) :
    (s.setMState m).inputs = s.inputs := rfl
@[simp] theorem State.setMState_answers (s : State) (m : MState) :
    (s.setMState m).answers = s.answers := rfl
@[simp] theorem State.setMState_attempts (s : State) (m : MState) :
    (s.setMState m).attempts = s.attempts := rfl
@[simp] theorem State.setMState_response (s : State) (m : MState) :
    (s.setMState m).response = s.response := rfl
@[simp] theorem State.setMState_pwmDraws (s : State) (m : MState) :
    (s.setMState m).pwmDraws = s.pwmDraws := rfl
@[simp] theorem State.setMState_acceptDraws (s : State) (m : MState) :
    (s.setMState m).acceptDraws = s.acceptDraws := rfl

/-! ### `advanceCursor` -/

@[simp] theorem State.advanceCursor_timers (s : State) :
    (s.advanceCursor).timers = s.timers := rfl
@[simp] theorem State.advanceCursor_msg (s : State) :
    (s.advanceCursor).msg = { s.msg with mcur := s.msg.mcur + 1 } := rfl
@[simp] theorem State.advanceCursor_mem (s : State) :
    (s.advanceCursor).mem = s.mem := rfl
@[simp] theorem State.advanceCursor_inputs (s : State) :
    (s.advanceCursor).inputs = s.inputs := rfl
@[simp] theorem State.advanceCursor_answers (s : State) :
    (s.advanceCursor).answers = s.answers := rfl
@[simp] theorem State.advanceCursor_attempts (s : State) :
    (s.advanceCursor).attempts = s.attempts := rfl
@[simp] theorem State.advanceCursor_response (s : State) :
    (s.advanceCursor).response = s.response := rfl
@[simp] theorem State.advanceCursor_pwmDraws (s : State) :
    (s.advanceCursor).pwmDraws = s.pwmDraws := rfl
@[simp] theorem State.advanceCursor_acceptDraws (s : State) :
    (s.advanceCursor).acceptDraws = s.acceptDraws := rfl

/-! ### `dropAnswer` and `tryWrite` -/

@[simp] theorem State.dropAnswer_timers (s : State) : s.dropAnswer.timers = s.timers := rfl
@[simp] theorem State.dropAnswer_msg (s : State) : s.dropAnswer.msg = s.msg := rfl
@[simp] theorem State.dropAnswer_mem (s : State) : s.dropAnswer.mem = s.mem := rfl
@[simp] theorem State.dropAnswer_inputs (s : State) : s.dropAnswer.inputs = s.inputs := rfl
@[simp] theorem State.dropAnswer_attempts (s : State) : s.dropAnswer.attempts = s.attempts := rfl
@[simp] theorem State.dropAnswer_response (s : State) : s.dropAnswer.response = s.response := rfl
@[simp] theorem State.dropAnswer_pwmDraws (s : State) : s.dropAnswer.pwmDraws = s.pwmDraws := rfl
@[simp] theorem State.tryWrite_timers (s : State) (b : Byte) : (s.tryWrite b).timers = s.timers := rfl
@[simp] theorem State.tryWrite_msg (s : State) (b : Byte) : (s.tryWrite b).msg = s.msg := rfl
@[simp] theorem State.tryWrite_mem (s : State) (b : Byte) : (s.tryWrite b).mem = s.mem := rfl
@[simp] theorem State.tryWrite_inputs (s : State) (b : Byte) : (s.tryWrite b).inputs = s.inputs := rfl
@[simp] theorem State.tryWrite_answers (s : State) (b : Byte) :
    (s.tryWrite b).answers = s.answers.tail := rfl
@[simp] theorem State.tryWrite_attempts (s : State) (b : Byte) :
    (s.tryWrite b).attempts = s.attempts ++ [{ byte := b, accepted := s.nextAnswer }] := rfl
@[simp] theorem State.tryWrite_response (s : State) (b : Byte) : (s.tryWrite b).response = s.response := rfl
@[simp] theorem State.tryWrite_pwmDraws (s : State) (b : Byte) : (s.tryWrite b).pwmDraws = s.pwmDraws := rfl
@[simp] theorem State.tryWrite_acceptDraws (s : State) (b : Byte) :
    (s.tryWrite b).acceptDraws = s.acceptDraws + (if s.answers = [] then 1 else 0) := rfl

theorem State.nextAnswer_cons (s : State) (a : Bool) (rest : List Bool) (h : s.answers = a :: rest) :
    s.nextAnswer = a := by
  simp [State.nextAnswer, h]

theorem State.dropAnswer_cons (s : State) (a : Bool) (rest : List Bool) (h : s.answers = a :: rest) :
    s.dropAnswer = { s with answers := rest } := by
  simp [State.dropAnswer, h]

/-- The next answer depends on the listed answers and the draw counter alone. -/
theorem State.nextAnswer_congr (s s' : State) (ha : s'.answers = s.answers)
    (hd : s'.acceptDraws = s.acceptDraws) : s'.nextAnswer = s.nextAnswer := by
  simp [State.nextAnswer, ha, hd]

/-- An attempt puts its byte on the wire exactly when it is accepted. -/
theorem State.tryWrite_wire (s : State) (b : Byte) :
    (s.tryWrite b).wire = if s.nextAnswer then s.wire ++ [b] else s.wire := by
  cases h : s.nextAnswer <;> simp [State.wire, h]

/-! ### Timers -/

theorem State.timer_setTimer_same (s : State) (t : Nat) (old tm : Timer) (h : s.timer t = some old) :
    (s.setTimer t tm).timer t = some tm := by
  obtain ⟨hlt, _⟩ := List.getElem?_eq_some_iff.mp h
  simp [State.timer, hlt]

theorem State.timer_setTimer_other (s : State) (t u : Nat) (tm : Timer) (h : u ≠ t) :
    (s.setTimer t tm).timer u = s.timer u := by
  simp [State.timer, Ne.symm h]

/-- A timer is present exactly below `NT`. -/
theorem State.timer_eq_none (s : State) (t : Nat) : s.timer t = none ↔ s.timers.length ≤ t := by
  simp [State.timer]

@[simp] theorem Timer.chan_setChan_same (tm : Timer) (ch : Channel) (c : Chan) :
    (tm.setChan ch c).chan ch = c := by
  cases ch <;> rfl

theorem Timer.chan_setChan_other (tm : Timer) (ch ch2 : Channel) (c : Chan) (h : ch2 ≠ ch) :
    (tm.setChan ch c).chan ch2 = tm.chan ch2 := by
  cases ch <;> cases ch2 <;> first | rfl | exact absurd rfl h

@[simp] theorem Timer.setChan_kind (tm : Timer) (ch : Channel) (c : Chan) :
    (tm.setChan ch c).kind = tm.kind := by
  cases ch <;> rfl
@[simp] theorem Timer.setChan_cs (tm : Timer) (ch : Channel) (c : Chan) :
    (tm.setChan ch c).cs = tm.cs := by
  cases ch <;> rfl
@[simp] theorem Timer.setChan_wgm (tm : Timer) (ch : Channel) (c : Chan) :
    (tm.setChan ch c).wgm = tm.wgm := by
  cases ch <;> rfl

@[simp] theorem Timer.writeCs_kind (tm : Timer) (v : Nat) : (tm.writeCs v).kind = tm.kind := rfl
@[simp] theorem Timer.writeCs_wgm (tm : Timer) (v : Nat) : (tm.writeCs v).wgm = tm.wgm := rfl
@[simp] theorem Timer.writeCs_chanA (tm : Timer) (v : Nat) : (tm.writeCs v).chanA = tm.chanA := rfl
@[simp] theorem Timer.writeCs_chanB (tm : Timer) (v : Nat) : (tm.writeCs v).chanB = tm.chanB := rfl
@[simp] theorem Timer.writeCs_cs (tm : Timer) (v : Nat) : (tm.writeCs v).cs = BitVec.ofNat 3 v := rfl
@[simp] theorem Timer.writeCs_chan (tm : Timer) (v : Nat) (ch : Channel) :
    (tm.writeCs v).chan ch = tm.chan ch := by
  cases ch <;> rfl

@[simp] theorem Timer.writeWave_kind (tm : Timer) (m : WaveMode) :
    (tm.writeWave m).kind = tm.kind := by
  unfold Timer.writeWave; split <;> rfl
@[simp] theorem Timer.writeWave_cs (tm : Timer) (m : WaveMode) :
    (tm.writeWave m).cs = tm.cs := by
  unfold Timer.writeWave; split <;> rfl
@[simp] theorem Timer.writeWave_chanA (tm : Timer) (m : WaveMode) :
    (tm.writeWave m).chanA = tm.chanA := by
  unfold Timer.writeWave; split <;> rfl
@[simp] theorem Timer.writeWave_chanB (tm : Timer) (m : WaveMode) :
    (tm.writeWave m).chanB = tm.chanB := by
  unfold Timer.writeWave; split <;> rfl
@[simp] theorem Timer.writeWave_chan (tm : Timer) (m : WaveMode) (ch : Channel) :
    (tm.writeWave m).chan ch = tm.chan ch := by
  cases ch <;> simp [Timer.chan]

theorem Timer.writeWave_wgm (tm : Timer) (m : WaveMode) (p : BitVec 4)
    (h : wavePattern tm.kind m = some p) : (tm.writeWave m).wgm = p := by
  simp [Timer.writeWave, h]

@[simp] theorem Timer.writeCom_kind (tm : Timer) (ch : Channel) (m : ComMode) :
    (tm.writeCom ch m).kind = tm.kind := by
  cases ch <;> rfl
@[simp] theorem Timer.writeCom_cs (tm : Timer) (ch : Channel) (m : ComMode) :
    (tm.writeCom ch m).cs = tm.cs := by
  cases ch <;> rfl
@[simp] theorem Timer.writeCom_wgm (tm : Timer) (ch : Channel) (m : ComMode) :
    (tm.writeCom ch m).wgm = tm.wgm := by
  cases ch <;> rfl
@[simp] theorem Timer.writeCom_chan (tm : Timer) (ch : Channel) (m : ComMode) :
    (tm.writeCom ch m).chan ch = { tm.chan ch with com := m.pattern } := by
  cases ch <;> rfl

@[simp] theorem Timer.writeCompare_kind (tm : Timer) (ch : Channel) (v : Nat) :
    (tm.writeCompare ch v).kind = tm.kind := by
  cases ch <;> rfl
@[simp] theorem Timer.writeCompare_cs (tm : Timer) (ch : Channel) (v : Nat) :
    (tm.writeCompare ch v).cs = tm.cs := by
  cases ch <;> rfl
@[simp] theorem Timer.writeCompare_wgm (tm : Timer) (ch : Channel) (v : Nat) :
    (tm.writeCompare ch v).wgm = tm.wgm := by
  cases ch <;> rfl
@[simp] theorem Timer.writeCompare_chan (tm : Timer) (ch : Channel) (v : Nat) :
    (tm.writeCompare ch v).chan ch = { tm.chan ch with ocr := truncCompare tm.kind v } := by
  cases ch <;> rfl

@[simp] theorem Timer.enablePin_kind (tm : Timer) (ch : Channel) :
    (tm.enablePin ch).kind = tm.kind := by
  cases ch <;> rfl
@[simp] theorem Timer.enablePin_cs (tm : Timer) (ch : Channel) :
    (tm.enablePin ch).cs = tm.cs := by
  cases ch <;> rfl
@[simp] theorem Timer.enablePin_wgm (tm : Timer) (ch : Channel) :
    (tm.enablePin ch).wgm = tm.wgm := by
  cases ch <;> rfl
@[simp] theorem Timer.enablePin_chan (tm : Timer) (ch : Channel) :
    (tm.enablePin ch).chan ch = { tm.chan ch with ddr := true } := by
  cases ch <;> rfl

@[simp] theorem Timer.bind_kind (tm : Timer) (ch : Channel) :
    (tm.bind ch).kind = tm.kind := by
  cases ch <;> rfl
@[simp] theorem Timer.bind_cs (tm : Timer) (ch : Channel) :
    (tm.bind ch).cs = tm.cs := by
  cases ch <;> rfl
@[simp] theorem Timer.bind_wgm (tm : Timer) (ch : Channel) :
    (tm.bind ch).wgm = tm.wgm := by
  cases ch <;> rfl
@[simp] theorem Timer.bind_chan (tm : Timer) (ch : Channel) :
    (tm.bind ch).chan ch = { tm.chan ch with bound := true } := by
  cases ch <;> rfl

end Sys2Proof.Machine
end

