-- ==== Sys2Proof/Laws/Ops.lean ====
section
/-! SUPPORT. For each shared operation, once, everything it can do. -/

namespace Sys2Proof.Machine

/-- `illegal()` changes the response port alone. -/
theorem illegal_next {s s' : State} (h : illegal s = .next s') :
    s' = { s with response := some { illegal := true, done := false } } := by
  simpa [illegal, eq_comm] using h

theorem respond_next {done : Bool} {s s' : State} (h : respond done s = .next s') :
    s' = { s with response := some { illegal := false, done := done } } := by
  simpa [respond, eq_comm] using h

/-- What `onTimer` can do: hand over timer `t`, or end as illegal with no such timer. -/
theorem onTimer_next {t : Nat} {s s' : State} {k : Timer → Result} (h : onTimer t s k = .next s') :
    (∃ tm, s.timer t = some tm ∧ k tm = .next s') ∨ (s.timer t = none ∧ illegal s = .next s') := by
  unfold onTimer at h
  split at h
  · next tm htm => exact .inl ⟨tm, htm, h⟩
  · next hn => exact .inr ⟨hn, h⟩

/-- What `onBound` can do. -/
theorem onBound_next {t : Nat} {ch : Channel} {s s' : State} {k : Timer → Result}
    (h : onBound t ch s k = .next s') :
    (∃ tm, s.timer t = some tm ∧ (tm.chan ch).bound = true ∧ k tm = .next s') ∨
      illegal s = .next s' := by
  obtain ⟨tm, htm, hk⟩ | ⟨_, hi⟩ := onTimer_next h
  · by_cases hb : (tm.chan ch).bound = true
    · exact .inl ⟨tm, htm, hb, by simpa [hb] using hk⟩
    · exact .inr (by simpa [hb] using hk)
  · exact .inr hi

/-- What `onBound16` can do. -/
theorem onBound16_next {t : Nat} {ch : Channel} {s s' : State} {k : Timer → Result}
    (h : onBound16 t ch s k = .next s') :
    (∃ tm, s.timer t = some tm ∧ (tm.chan ch).bound = true ∧ tm.kind = .t16 ∧ k tm = .next s') ∨
      illegal s = .next s' := by
  obtain ⟨tm, htm, hb, hk⟩ | hi := onBound_next h
  · by_cases h16 : tm.kind = .t16
    · exact .inl ⟨tm, htm, hb, h16, by simpa [h16] using hk⟩
    · exact .inr (by simpa [h16] using hk)
  · exact .inr hi

/-- What `onBound8` can do. -/
theorem onBound8_next {t : Nat} {ch : Channel} {s s' : State} {k : Timer → Result}
    (h : onBound8 t ch s k = .next s') :
    (∃ tm, s.timer t = some tm ∧ (tm.chan ch).bound = true ∧ tm.kind ≠ .t16 ∧ k tm = .next s') ∨
      illegal s = .next s' := by
  obtain ⟨tm, htm, hb, hk⟩ | hi := onBound_next h
  · by_cases h16 : tm.kind = .t16
    · exact .inr (by simpa [h16] using hk)
    · exact .inl ⟨tm, htm, hb, h16, by simpa [h16] using hk⟩
  · exact .inr hi

/-- On a legal pair `onBound` is its continuation. -/
theorem onBound_eq {t : Nat} {ch : Channel} {s : State} {k : Timer → Result} {tm : Timer}
    (ht : s.timer t = some tm) (hb : (tm.chan ch).bound = true) : onBound t ch s k = k tm := by
  simp [onBound, onTimer, ht, hb]

theorem onBound16_eq {t : Nat} {ch : Channel} {s : State} {k : Timer → Result} {tm : Timer}
    (ht : s.timer t = some tm) (hb : (tm.chan ch).bound = true) (hk : tm.kind = .t16) :
    onBound16 t ch s k = k tm := by
  simp [onBound16, onBound_eq ht hb, hk]

theorem onBound8_eq {t : Nat} {ch : Channel} {s : State} {k : Timer → Result} {tm : Timer}
    (ht : s.timer t = some tm) (hb : (tm.chan ch).bound = true) (hk : tm.kind ≠ .t16) :
    onBound8 t ch s k = k tm := by
  simp [onBound8, onBound_eq ht hb, hk]

/-- What a legal `PWM.*` command does to the state: timer `t` is replaced, perhaps after a draw, and
the response is `{0, 0}`. -/
def TimerReplaced (t : Nat) (tm' : Timer) (s s' : State) : Prop :=
  ∃ n, s' = { { s with pwmDraws := n }.setTimer t tm' with
    response := some { illegal := false, done := false } }

/-- What the effect of a hint command can do. -/
theorem hintEffect_next {w : CounterWidth} {t : Nat} {f cpu : BitVec 32} {s s' : State} {tm : Timer}
    (h : hintEffect w t f cpu s tm = .next s') :
    (f = 0 ∧ TimerReplaced t (tm.drawClockAndWave s.pwmDraws) s s') ∨
    (f ≠ 0 ∧ TimerReplaced t
      (programHint tm (select (divisor cpu f w) (divisorTable tm.kind)).1
        (select (divisor cpu f w) (divisorTable tm.kind)).2 w) s s') := by
  by_cases hf : f = 0
  · simp only [hintEffect, hf, if_true] at h
    exact .inl ⟨hf, _, respond_next h⟩
  · simp only [hintEffect, hf, if_false] at h
    exact .inr ⟨hf, s.pwmDraws, respond_next h⟩

/-- What the effect of `PWM.EXACT` can do. -/
theorem exactEffect_next {t : Nat} {f cpu : BitVec 32} {s s' : State} {tm : Timer}
    (h : exactEffect t f cpu s tm = .next s') :
    (f = 0 ∧ TimerReplaced t ((tm.drawClockAndWave s.pwmDraws).drawTop s.pwmDraws) s s') ∨
    (f ≠ 0 ∧ TimerReplaced t (programExact tm (exactChoice cpu f (divisorTable tm.kind))) s s') := by
  by_cases hf : f = 0
  · simp only [exactEffect, hf, if_true] at h
    exact .inl ⟨hf, _, respond_next h⟩
  · simp only [exactEffect, hf, if_false] at h
    exact .inr ⟨hf, s.pwmDraws, respond_next h⟩

/-- What one attempt that may move `MSTATE` can do. -/
theorem attemptMove_next {b : Byte} {m : MState} {done : Bool} {s s' : State}
    (h : attemptMove b m done s = .next s') :
    (s.nextAnswer = true ∧ s' = { (s.tryWrite b).setMState m with
        response := some { illegal := false, done := done } }) ∨
    (s.nextAnswer = false ∧ s' = { s.tryWrite b with
        response := some { illegal := false, done := false } }) := by
  unfold attemptMove at h
  split at h
  · next ha => exact .inl ⟨ha, respond_next h⟩
  · next ha => exact .inr ⟨by simpa using ha, respond_next h⟩

/-- What the attempt of the `DATA` arm can do. -/
theorem attemptPayload_cases (s : State) :
    (s.msg.mcur.toNat < s.msg.mlen.toNat ∧ s.nextAnswer = true ∧
      attemptPayload s =
        (s.tryWrite (s.mem.read (payloadAddr s.msg.mptr s.msg.mcur.toNat))).advanceCursor) ∨
    (s.msg.mcur.toNat < s.msg.mlen.toNat ∧ s.nextAnswer = false ∧
      attemptPayload s = s.tryWrite (s.mem.read (payloadAddr s.msg.mptr s.msg.mcur.toNat))) ∨
    (s.msg.mlen.toNat ≤ s.msg.mcur.toNat ∧ attemptPayload s = s) := by
  unfold attemptPayload
  by_cases hc : s.msg.mcur.toNat < s.msg.mlen.toNat
  · cases ha : s.nextAnswer
    · exact .inr (.inl ⟨hc, rfl, by simp [hc]⟩)
    · exact .inl ⟨hc, rfl, by simp [hc]⟩
  · exact .inr (.inr ⟨by omega, by simp [hc]⟩)

/-- The scan of `Select` stays inside the table (40 R76, R77). -/
theorem selectFrom_lt (d : Nat) (table : List Nat) (k : Nat) (h : 0 < k + table.length) :
    (selectFrom d k table).2 < k + table.length := by
  induction table generalizing k with
  | nil => simp only [selectFrom, List.length_nil, Nat.add_zero] at h ⊢; omega
  | cons e rest ih =>
    simp only [selectFrom]
    split
    · simp
    · split
      · simp
      · have := ih (k + 1) (by omega)
        simp only [List.length_cons]
        omega

/-- Every table has an entry, so the chosen index is one of the table's. -/
theorem select_lt (d : Nat) (kind : TimerKind) :
    (select d (divisorTable kind)).2 < tableSize kind := by
  simpa [select, tableSize] using
    selectFrom_lt d (divisorTable kind) 0 (by cases kind <;> simp [divisorTable])

/-- What a step can do, by the event at the head of the inputs. -/
theorem step_next {s s' : State} (h : step s = .next s') :
    (s.inputs = [] ∧ s' = s) ∨
    (∃ w rest i, s.inputs = .command w :: rest ∧ decode w = .ok i ∧
      exec i (s.takeInput rest) = .next s') ∨
    (∃ w rest reason, s.inputs = .command w :: rest ∧ decode w = .error reason ∧
      illegal (s.takeInput rest) = .next s') ∨
    (∃ addr b rest, s.inputs = .memWrite addr b :: rest ∧
      hostWrite addr b (s.takeInput rest) = .next s') ∨
    (∃ rest, s.inputs = .reset :: rest ∧ resetInput (s.takeInput rest) = .next s') := by
  unfold step at h
  split at h
  · next hi => exact .inl ⟨hi, by simpa [waitForCommand, eq_comm] using h⟩
  · next w rest hi =>
    split at h
    · next i hd => exact .inr (.inl ⟨w, rest, i, hi, hd, h⟩)
    · next reason hd =>
      refine .inr (.inr (.inl ⟨w, rest, reason, hi, hd, ?_⟩))
      cases reason <;> exact h
  · next addr b rest hi => exact .inr (.inr (.inr (.inl ⟨addr, b, rest, hi, h⟩)))
  · next rest hi => exact .inr (.inr (.inr (.inr ⟨rest, hi, h⟩)))

end Sys2Proof.Machine
end

