-- ==== Sys2Proof/Laws/Exec.lean ====
section
/-! SUPPORT. For each command's meaning, once, everything it can do: a `PWM.*` command is illegal or
replaces its timer, a `MSG.STEP` does what its arm says. -/

namespace Sys2Proof.Machine

/-- `PWM.INIT` on a timer that exists, else `illegal()`. -/
theorem execPwmInit_next {t : Nat} {ch : Channel} {s s' : State} (h : execPwmInit t ch s = .next s') :
    illegal s = .next s' ∨
      ∃ tm, s.timer t = some tm ∧ TimerReplaced t (tm.initChannel ch) s s' := by
  obtain ⟨tm, ht, hk⟩ | ⟨_, hi⟩ := onTimer_next h
  · exact .inr ⟨tm, ht, s.pwmDraws, respond_next hk⟩
  · exact .inl hi

theorem execPwmClose_next {t : Nat} {ch : Channel} {s s' : State} (h : execPwmClose t ch s = .next s') :
    illegal s = .next s' ∨
      ∃ tm, s.timer t = some tm ∧ (tm.chan ch).bound = true ∧
        TimerReplaced t (tm.closeChannel ch) s s' := by
  obtain ⟨tm, ht, hb, hk⟩ | hi := onBound_next h
  · exact .inr ⟨tm, ht, hb, s.pwmDraws, respond_next hk⟩
  · exact .inl hi

theorem execPwmDuty_next {t : Nat} {ch : Channel} {v : BitVec 32} {s s' : State}
    (h : execPwmDuty t ch v s = .next s') :
    illegal s = .next s' ∨
      ∃ tm, s.timer t = some tm ∧ (tm.chan ch).bound = true ∧
        TimerReplaced t (tm.writeCompare ch v.toNat) s s' := by
  obtain ⟨tm, ht, hb, hk⟩ | hi := onBound_next h
  · exact .inr ⟨tm, ht, hb, s.pwmDraws, respond_next hk⟩
  · exact .inl hi

/-- What a hint command of width `w` leaves in its timer. -/
def HintWritten (w : CounterWidth) (f cpu : BitVec 32) (draw : Nat) (tm tm' : Timer) : Prop :=
  (f = 0 ∧ tm' = tm.drawClockAndWave draw) ∨
  (f ≠ 0 ∧ tm' = programHint tm (select (divisor cpu f w) (divisorTable tm.kind)).1
    (select (divisor cpu f w) (divisorTable tm.kind)).2 w)

theorem hintEffect_written {w : CounterWidth} {t : Nat} {f cpu : BitVec 32} {s s' : State} {tm : Timer}
    (h : hintEffect w t f cpu s tm = .next s') :
    ∃ tm', HintWritten w f cpu s.pwmDraws tm tm' ∧ TimerReplaced t tm' s s' := by
  obtain ⟨hf, hr⟩ | ⟨hf, hr⟩ := hintEffect_next h
  · exact ⟨_, .inl ⟨hf, rfl⟩, hr⟩
  · exact ⟨_, .inr ⟨hf, rfl⟩, hr⟩

theorem execPwmHint8_next {t : Nat} {ch : Channel} {f cpu : BitVec 32} {s s' : State}
    (h : execPwmHint8 t ch f cpu s = .next s') :
    illegal s = .next s' ∨
      ∃ tm tm', s.timer t = some tm ∧ (tm.chan ch).bound = true ∧
        HintWritten .w8 f cpu s.pwmDraws tm tm' ∧ TimerReplaced t tm' s s' := by
  obtain ⟨tm, ht, hb, hk⟩ | hi := onBound_next h
  · obtain ⟨tm', hw, hr⟩ := hintEffect_written hk
    exact .inr ⟨tm, tm', ht, hb, hw, hr⟩
  · exact .inl hi

theorem execPwmHint9_next {t : Nat} {ch : Channel} {f cpu : BitVec 32} {s s' : State}
    (h : execPwmHint9 t ch f cpu s = .next s') :
    illegal s = .next s' ∨
      ∃ tm tm', s.timer t = some tm ∧ (tm.chan ch).bound = true ∧ tm.kind = .t16 ∧
        HintWritten .w9 f cpu s.pwmDraws tm tm' ∧ TimerReplaced t tm' s s' := by
  obtain ⟨tm, ht, hb, h16, hk⟩ | hi := onBound16_next h
  · obtain ⟨tm', hw, hr⟩ := hintEffect_written hk
    exact .inr ⟨tm, tm', ht, hb, h16, hw, hr⟩
  · exact .inl hi

theorem execPwmHint10_next {t : Nat} {ch : Channel} {f cpu : BitVec 32} {s s' : State}
    (h : execPwmHint10 t ch f cpu s = .next s') :
    illegal s = .next s' ∨
      ∃ tm tm', s.timer t = some tm ∧ (tm.chan ch).bound = true ∧ tm.kind = .t16 ∧
        HintWritten .w10 f cpu s.pwmDraws tm tm' ∧ TimerReplaced t tm' s s' := by
  obtain ⟨tm, ht, hb, h16, hk⟩ | hi := onBound16_next h
  · obtain ⟨tm', hw, hr⟩ := hintEffect_written hk
    exact .inr ⟨tm, tm', ht, hb, h16, hw, hr⟩
  · exact .inl hi

/-- What `PWM.EXACT` leaves in its timer. -/
def ExactWritten (f cpu : BitVec 32) (draw : Nat) (tm tm' : Timer) : Prop :=
  (f = 0 ∧ tm' = (tm.drawClockAndWave draw).drawTop draw) ∨
  (f ≠ 0 ∧ tm' = programExact tm (exactChoice cpu f (divisorTable tm.kind)))

theorem execPwmExact_next {t : Nat} {ch : Channel} {f cpu : BitVec 32} {s s' : State}
    (h : execPwmExact t ch f cpu s = .next s') :
    illegal s = .next s' ∨
      ∃ tm tm', s.timer t = some tm ∧ (tm.chan ch).bound = true ∧ tm.kind ≠ .t16 ∧
        ExactWritten f cpu s.pwmDraws tm tm' ∧ TimerReplaced t tm' s s' := by
  obtain ⟨tm, ht, hb, h16, hk⟩ | hi := onBound8_next h
  · obtain ⟨hf, hr⟩ | ⟨hf, hr⟩ := exactEffect_next hk
    · exact .inr ⟨tm, _, ht, hb, h16, .inl ⟨hf, rfl⟩, hr⟩
    · exact .inr ⟨tm, _, ht, hb, h16, .inr ⟨hf, rfl⟩, hr⟩
  · exact .inl hi

/-- What the `DATA` arm can do: a byte accepted (the last one or not), a byte rejected, or nothing left
to attempt. -/
theorem dataArm_cases (s : State) :
    (s.msg.mcur.toNat < s.msg.mlen.toNat ∧ s.nextAnswer = true ∧
      completePayload (attemptPayload s) =
        { s.tryWrite (s.mem.read (payloadAddr s.msg.mptr s.msg.mcur.toNat)) with
          msg := { s.msg with
            mcur := s.msg.mcur + 1
            mstate := if s.msg.mlen.toNat ≤ (s.msg.mcur + 1).toNat then .ckh else s.msg.mstate } }) ∨
    (s.msg.mcur.toNat < s.msg.mlen.toNat ∧ s.nextAnswer = false ∧
      completePayload (attemptPayload s) =
        s.tryWrite (s.mem.read (payloadAddr s.msg.mptr s.msg.mcur.toNat))) ∨
    (s.msg.mlen.toNat ≤ s.msg.mcur.toNat ∧ completePayload (attemptPayload s) = s.setMState .ckh) := by
  obtain ⟨hc, ha, he⟩ | ⟨hc, ha, he⟩ | ⟨hc, he⟩ := attemptPayload_cases s
  · refine .inl ⟨hc, ha, ?_⟩
    rw [he, completePayload]
    by_cases hl : s.msg.mlen.toNat ≤ (s.msg.mcur + 1).toNat
    · simp only [State.advanceCursor_msg, State.tryWrite_msg, hl, if_true]; rfl
    · simp only [State.advanceCursor_msg, State.tryWrite_msg, hl, if_false]; rfl
  · refine .inr (.inl ⟨hc, ha, ?_⟩)
    rw [he, completePayload]
    simp only [State.tryWrite_msg, Nat.not_le.mpr hc, if_false]
  · refine .inr (.inr ⟨hc, ?_⟩)
    rw [he, completePayload]
    simp only [hc, if_true]

/-- `MSG.STEP` with no frame in progress. -/
theorem execMsgStep_idle {s : State} (h : s.msg.mstate = .idle ∨ s.msg.mstate = .sent) :
    execMsgStep s = illegal s := by
  obtain h | h := h <;> simp only [execMsgStep, h]

theorem execMsgStep_header {s : State} (h : s.msg.mstate = .header) :
    execMsgStep s = attemptMove 0x3A .data false s := by
  simp only [execMsgStep, h]

theorem execMsgStep_data {s : State} (h : s.msg.mstate = .data) :
    execMsgStep s = respond false (completePayload (attemptPayload s)) := by
  simp only [execMsgStep, h]

theorem execMsgStep_ckh {s : State} (h : s.msg.mstate = .ckh) :
    execMsgStep s = attemptMove (highDigit s.msg.mck) .ckl false s := by
  simp only [execMsgStep, h]

theorem execMsgStep_ckl {s : State} (h : s.msg.mstate = .ckl) :
    execMsgStep s = attemptMove (lowDigit s.msg.mck) .endMark false s := by
  simp only [execMsgStep, h]

theorem execMsgStep_endMark {s : State} (h : s.msg.mstate = .endMark) :
    execMsgStep s = attemptMove 0x0A .sent true s := by
  simp only [execMsgStep, h]

/-- What every `MSG.STEP` keeps (44 R118): the timers, payload memory, the inputs, the reference to the
payload and its checksum. -/
theorem execMsgStep_keeps {s s' : State} (h : execMsgStep s = .next s') :
    s'.timers = s.timers ∧ s'.mem = s.mem ∧ s'.inputs = s.inputs ∧ s'.pwmDraws = s.pwmDraws ∧
      s'.msg.mptr = s.msg.mptr ∧ s'.msg.mlen = s.msg.mlen ∧ s'.msg.mck = s.msg.mck := by
  have attempt : ∀ {b m done}, attemptMove b m done s = .next s' →
      s'.timers = s.timers ∧ s'.mem = s.mem ∧ s'.inputs = s.inputs ∧ s'.pwmDraws = s.pwmDraws ∧
        s'.msg.mptr = s.msg.mptr ∧ s'.msg.mlen = s.msg.mlen ∧ s'.msg.mck = s.msg.mck := by
    intro b m done ha
    obtain ⟨_, rfl⟩ | ⟨_, rfl⟩ := attemptMove_next ha <;> simp
  cases hm : s.msg.mstate with
  | idle => rw [execMsgStep_idle (.inl hm)] at h; simp [illegal_next h]
  | header => exact attempt (execMsgStep_header hm ▸ h)
  | data =>
    rw [execMsgStep_data hm] at h
    rw [respond_next h]
    obtain ⟨_, _, he⟩ | ⟨_, _, he⟩ | ⟨_, he⟩ := dataArm_cases s <;> simp [he]
  | ckh => exact attempt (execMsgStep_ckh hm ▸ h)
  | ckl => exact attempt (execMsgStep_ckl hm ▸ h)
  | endMark => exact attempt (execMsgStep_endMark hm ▸ h)
  | sent => rw [execMsgStep_idle (.inr hm)] at h; simp [illegal_next h]

/-- The sum of a payload depends on its bytes alone (44 R117). -/
theorem payloadSum_congr {mem mem' : Memory} {ptr : Addr} {n : Nat}
    (h : ∀ i, i < n → mem'.read (payloadAddr ptr i) = mem.read (payloadAddr ptr i)) :
    payloadSum mem' ptr n = payloadSum mem ptr n := by
  induction n with
  | zero => rfl
  | succ n ih =>
    rw [payloadSum, payloadSum, ih fun i hi => h i (by omega), h n (by omega)]

end Sys2Proof.Machine
end

