-- ==== Sys2Proof/Laws/Memory.lean ====
section
/-! SUPPORT. Payload memory: a read after a write, and that a write keeps the canonical form. -/

namespace Sys2Proof.Machine

theorem Memory.wfFrom_mono {m : Memory} {lo lo' : Nat} (h : lo' ≤ lo) (hw : Memory.wfFrom lo m = true) :
    Memory.wfFrom lo' m = true := by
  cases m with
  | nil => rfl
  | cons c rest =>
    obtain ⟨a, b⟩ := c
    simp only [Memory.wfFrom, Bool.and_eq_true, decide_eq_true_eq] at hw ⊢
    exact ⟨⟨⟨by omega, hw.1.1.2⟩, hw.1.2⟩, hw.2⟩

/-- A canonical memory lists nothing below the bound it is canonical from. -/
theorem Memory.find_below {m : Memory} {lo k : Nat} (hw : Memory.wfFrom lo m = true) (hk : k < lo) :
    Memory.find m k = none := by
  induction m generalizing lo with
  | nil => rfl
  | cons c rest ih =>
    obtain ⟨a, b⟩ := c
    simp only [Memory.wfFrom, Bool.and_eq_true, decide_eq_true_eq] at hw
    have hne : a ≠ k := by omega
    simp only [Memory.find, hne, if_false]
    exact ih hw.2 (by omega)

theorem Memory.put_wf {m : Memory} {lo k : Nat} (v : Byte) (hw : Memory.wfFrom lo m = true)
    (hlo : lo ≤ k) (hk : k < 65536) : Memory.wfFrom lo (Memory.put m k v) = true := by
  induction m generalizing lo with
  | nil =>
    by_cases hv : v = Memory.unlisted <;> simp [Memory.put, Memory.wfFrom, hv, hlo, hk]
  | cons c rest ih =>
    obtain ⟨a, b⟩ := c
    simp only [Memory.wfFrom, Bool.and_eq_true, decide_eq_true_eq] at hw
    obtain ⟨⟨⟨h1, h2⟩, h3⟩, h4⟩ := hw
    simp only [Memory.put]
    by_cases hlt : a < k
    · simp only [hlt, if_true, Memory.wfFrom, Bool.and_eq_true, decide_eq_true_eq]
      exact ⟨⟨⟨h1, h2⟩, h3⟩, ih h4 (by omega)⟩
    · simp only [hlt, if_false]
      by_cases hak : a = k
      · subst hak
        by_cases hv : v = Memory.unlisted
        · simpa [hv] using Memory.wfFrom_mono (by omega) h4
        · simp [hv, Memory.wfFrom, h1, h2, h4]
      · have hka : k + 1 ≤ a := by omega
        by_cases hv : v = Memory.unlisted <;>
          simp_all [Memory.wfFrom]

theorem Memory.find_put {m : Memory} {lo k : Nat} (v : Byte) (j : Nat)
    (hw : Memory.wfFrom lo m = true) :
    (Memory.find (Memory.put m k v) j).getD Memory.unlisted =
      if j = k then v else (Memory.find m j).getD Memory.unlisted := by
  induction m generalizing lo with
  | nil =>
    by_cases hv : v = Memory.unlisted
    · simp [Memory.put, Memory.find, hv]
    · by_cases hj : j = k
      · simp [Memory.put, Memory.find, hv, hj]
      · simp [Memory.put, Memory.find, hv, hj, Ne.symm hj]
  | cons c rest ih =>
    obtain ⟨a, b⟩ := c
    simp only [Memory.wfFrom, Bool.and_eq_true, decide_eq_true_eq] at hw
    obtain ⟨⟨⟨h1, h2⟩, h3⟩, h4⟩ := hw
    have hrest : ∀ x, x ≤ a → Memory.find rest x = none := fun x hx =>
      Memory.find_below h4 (by omega)
    simp only [Memory.put]
    by_cases hlt : a < k
    · simp only [hlt, if_true, Memory.find]
      by_cases haj : a = j
      · subst haj
        have : a ≠ k := by omega
        simp [this]
      · simpa [haj] using ih h4
    · simp only [hlt, if_false]
      by_cases hak : a = k
      · subst hak
        by_cases hv : v = Memory.unlisted <;> by_cases hj : j = a
        · subst hj; simp [hv, hrest]
        · simp [hv, hj, Memory.find, Ne.symm hj]
        · subst hj; simp [hv, Memory.find]
        · simp [hv, hj, Memory.find, Ne.symm hj]
      · by_cases hv : v = Memory.unlisted <;> by_cases hj : j = k
        · subst hj
          simp [hv, hak, Memory.find, hrest j (by omega)]
        · simp [hv, hak, hj, Memory.find]
        · subst hj; simp [hv, hak, Memory.find]
        · simp [hv, hak, hj, Memory.find, Ne.symm hj]

/-- Every host write keeps the canonical form. -/
theorem Memory.write_wf (m : Memory) (addr : Addr) (v : Byte) (hw : m.wf = true) :
    (m.write addr v).wf = true :=
  Memory.put_wf v hw (Nat.zero_le _) addr.isLt

/-- A read after a write: the byte written at its address, the old byte everywhere else. -/
theorem Memory.read_write (m : Memory) (addr addr' : Addr) (v : Byte) (hw : m.wf = true) :
    (m.write addr v).read addr' = if addr' = addr then v else m.read addr' := by
  have h := Memory.find_put (k := addr.toNat) v addr'.toNat hw
  simp only [Memory.read, Memory.write, h, BitVec.toNat_inj]

/-- An empty memory is canonical and reads as `unlisted`. -/
theorem Memory.nil_wf : Memory.wf [] = true := rfl

theorem Memory.nil_read (addr : Addr) : Memory.read [] addr = Memory.unlisted := rfl

end Sys2Proof.Machine
end

