-- ==== Sys2Proof/Laws/PerInstr.lean ====
section
/-! SUPPORT. Families of facts about the commands as syntax, one lemma per constructor.
`EncodedRow`: the word of a command carries its row's opcode and zero reserved bits
(spec/30_encoding.md R58). -/

namespace Sys2Proof.Laws.EncodedRow

/-- The opcode byte of each command (30 R58). -/
def opByte : Instr → BitVec 8
  | .pwmInit _ _ => 0x01
  | .pwmHint8 _ _ _ _ => 0x02
  | .pwmHint9 _ _ _ _ => 0x03
  | .pwmHint10 _ _ _ _ => 0x04
  | .pwmExact _ _ _ _ => 0x05
  | .pwmDuty _ _ _ => 0x06
  | .pwmClose _ _ => 0x07
  | .msgInit _ _ => 0x10
  | .msgStep => 0x11

/-- The word of `i` carries its row's opcode and zero reserved bits. -/
def Statement (i : Instr) : Prop := fieldOp (encode i) = opByte i ∧ fieldRsv (encode i) = 0

theorem pwmInit (t : Nat) (ch : Channel) : Statement (.pwmInit t ch) :=
  ⟨fieldOp_cmdWord .., by simp [encode, fieldRsv_eq_sel, selOf_rsv]⟩

theorem pwmHint8 (t : Nat) (ch : Channel) (f c : BitVec 32) : Statement (.pwmHint8 t ch f c) :=
  ⟨fieldOp_cmdWord .., by simp [encode, fieldRsv_eq_sel, selOf_rsv]⟩

theorem pwmHint9 (t : Nat) (ch : Channel) (f c : BitVec 32) : Statement (.pwmHint9 t ch f c) :=
  ⟨fieldOp_cmdWord .., by simp [encode, fieldRsv_eq_sel, selOf_rsv]⟩

theorem pwmHint10 (t : Nat) (ch : Channel) (f c : BitVec 32) : Statement (.pwmHint10 t ch f c) :=
  ⟨fieldOp_cmdWord .., by simp [encode, fieldRsv_eq_sel, selOf_rsv]⟩

theorem pwmExact (t : Nat) (ch : Channel) (f c : BitVec 32) : Statement (.pwmExact t ch f c) :=
  ⟨fieldOp_cmdWord .., by simp [encode, fieldRsv_eq_sel, selOf_rsv]⟩

theorem pwmDuty (t : Nat) (ch : Channel) (v : BitVec 32) : Statement (.pwmDuty t ch v) :=
  ⟨fieldOp_cmdWord .., by simp [encode, fieldRsv_eq_sel, selOf_rsv]⟩

theorem pwmClose (t : Nat) (ch : Channel) : Statement (.pwmClose t ch) :=
  ⟨fieldOp_cmdWord .., by simp [encode, fieldRsv_eq_sel, selOf_rsv]⟩

theorem msgInit (ptr len : BitVec 16) : Statement (.msgInit ptr len) :=
  ⟨fieldOp_cmdWord .., by simp [encode, fieldRsv_eq_sel]⟩

theorem msgStep : Statement .msgStep :=
  ⟨fieldOp_cmdWord .., by simp [encode, fieldRsv_eq_sel]⟩

end Sys2Proof.Laws.EncodedRow
end

