-- ==== Sys2Proof/Tests/Slice0.lean ====
section
/-! SUPPORT. The model's own tests: expected results are those of spec/30_encoding.md R68 and
spec/95_test_vectors.md, and for every statement with hypotheses a concrete state that meets them. -/

namespace Sys2Proof.Tests

open Sys2Proof.Machine Sys2Proof.Claims

/-! ### Small states -/

/-- A channel after `PWM.INIT`. -/
def boundChan : Chan := { com := 0b10, ocr := 0, ddr := true, bound := true }

/-- A timer whose channels are both bound. -/
def boundTimer (kind : TimerKind) : Timer :=
  { kind := kind, cs := 0, wgm := 0, chanA := boundChan, chanB := boundChan }

/-- The reset state with every channel bound. -/
def ready : State := { State.reset with timers := Config.defaultKinds.map boundTimer }

/-- The payload `41 42` at 0x0100 of trace M1. -/
def memAB : Memory := [(0x100, 0x41), (0x101, 0x42)]

/-- A message context in the frame of that payload, with the transport's answers to come. -/
def inFrame (m : MState) (cur : BitVec 16) (answers : List Bool) : State :=
  { ready with
    msg := { mstate := m, mptr := 0x100, mlen := 2, mcur := cur, mck := 0x7D }
    mem := memAB
    answers := answers }

/-- The same with the empty payload of trace M3. -/
def inEmptyFrame (m : MState) (answers : List Bool) : State :=
  { ready with
    msg := { mstate := m, mptr := 0x100, mlen := 0, mcur := 0, mck := 0 }
    answers := answers }

/-- Next to be taken: these events. -/
def given (s : State) (events : List HostEvent) : State := { s with inputs := events }

/-- The next state, if there is one. -/
def after : Result → Option State
  | .next s => some s
  | .fault _ => none
  | .refused _ => none

/-- `CS`, `WGM` and `OCR[t][A]` of a timer after a command on `ready`. -/
def programmed (i : Instr) (t : Nat) : Option (Nat × Nat × Nat) :=
  ((after (exec i ready)).bind (·.timer t)).map fun tm =>
    (tm.cs.toNat, tm.wgm.toNat, tm.chanA.ocr.toNat)

/-- The response to a command word in a state, `(illegal, done)`. -/
def answer (s : State) (w : CmdWord) : Option (Bool × Bool) :=
  ((after (step (given s [.command w]))).bind (·.response)).map fun r => (r.illegal, r.done)

/-- The context, the response bit `done` and the wire after one `MSG.STEP`. -/
def stepped (s : State) : Option (MState × Nat × Option Bool × List Byte) :=
  (after (exec .msgStep s)).map fun s' =>
    (s'.msg.mstate, s'.msg.mcur.toNat, s'.response.map (·.done), s'.wire)

/-! ### `WellFormed`: an ill-formed term for each check -/

theorem test_illformed_init : (Instr.pwmInit 8 .A).wellFormed = false := by decide
theorem test_illformed_hint8 : (Instr.pwmHint8 8 .B 1 1).wellFormed = false := by decide
theorem test_illformed_hint9 : (Instr.pwmHint9 9 .A 1 1).wellFormed = false := by decide
theorem test_illformed_hint10 : (Instr.pwmHint10 8 .A 1 1).wellFormed = false := by decide
theorem test_illformed_exact : (Instr.pwmExact 16 .A 1 1).wellFormed = false := by decide
theorem test_illformed_duty : (Instr.pwmDuty 8 .B 0).wellFormed = false := by decide
theorem test_illformed_close : (Instr.pwmClose 8 .B).wellFormed = false := by decide

/-! ### Decoding: words of 30 R68 and of 95 sections 6 and 7, and their `op` bytes -/

theorem test_decode_init : decode 0x01050000000000000000 = .ok (.pwmInit 2 .B) := by decide
theorem test_decode_hint8 : decode 0x0201000003E800F42400 = .ok (.pwmHint8 0 .B 1000 16000000) := by
  decide
theorem test_decode_hint9 : decode 0x03000000003200F42400 = .ok (.pwmHint9 0 .A 50 16000000) := by
  decide
theorem test_decode_hint10 : decode 0x04020000003200F42400 = .ok (.pwmHint10 1 .A 50 16000000) := by
  decide
theorem test_decode_exact : decode 0x0505000001B800F42400 = .ok (.pwmExact 2 .B 440 16000000) := by
  decide
theorem test_decode_duty : decode 0x06050000004700000000 = .ok (.pwmDuty 2 .B 71) := by decide
theorem test_decode_close : decode 0x07010000000000000000 = .ok (.pwmClose 0 .B) := by decide
theorem test_decode_msg_init : decode 0x10000000010000000002 = .ok (.msgInit 0x0100 2) := by decide
theorem test_decode_msg_step : decode 0x11000000000000000000 = .ok .msgStep := by decide

theorem test_reserved_ops :
    [0x00000000000000000000, 0x08000000000000000000, 0x12000000000000000000,
      0xFFFFFFFFFFFFFFFFFFFF].map decode = List.replicate 4 (.error .unknownOp) := by decide

theorem test_reserved_fields :
    [0x01000000000100000000, 0x01100000000000000000, 0x06010000000100000001, 0x07010000000000000001,
      0x10000001010000000002, 0x10010000010000000002, 0x11000000000000000001].map decode =
      List.replicate 7 (.error .mustBeZero) := by decide

theorem test_table_word : decodeTableWord 80 0x06050000004700000000 = some (.pwmDuty 2 .B 71) := by
  decide

theorem test_written :
    (Instr.pwmHint8 0 .B 1000 16000000).written = "PWM.HINT8 0, B, 1000, 16000000" := by decide

/-! ### Selection: 95 section 2 -/

theorem test_select_t5 :
    [0, 1, 2, 8, 16, 62, 64, 128, 256, 512, 1024, 2048].map (fun d => select d (divisorTable .t8_5)) =
      [(.fast, 0), (.pc, 0), (.fast, 1), (.pc, 1), (.fast, 2), (.fast, 2), (.pc, 2), (.fast, 3),
        (.pc, 3), (.fast, 4), (.pc, 4), (.pc, 4)] := by decide

theorem test_select_t7 :
    [0, 1, 16, 32, 62, 64, 128, 256, 512, 1024, 2048].map (fun d => select d (divisorTable .t8_7)) =
      [(.fast, 0), (.pc, 0), (.fast, 2), (.pc, 2), (.pc, 2), (.pc, 3), (.pc, 4), (.pc, 5), (.fast, 6),
        (.pc, 6), (.pc, 6)] := by decide

theorem test_hint8 : programmed (.pwmHint8 0 .B 1000 16000000) 0 = some (3, 0b0011, 0) := by decide
theorem test_hint8_on_16_bit : programmed (.pwmHint8 1 .A 1000 16000000) 1 = some (3, 0b0101, 0) := by
  decide
theorem test_hint9 : programmed (.pwmHint9 1 .A 1000 16000000) 1 = some (3, 0b0110, 0) := by decide
theorem test_hint10 : programmed (.pwmHint10 1 .A 50 16000000) 1 = some (4, 0b0011, 0) := by decide

/-! ### `PWM.EXACT`: 95 section 3, one row a case -/

theorem test_exact_cases_1_2 :
    programmed (.pwmExact 0 .A 100000 16000000) 0 = some (1, 0b0111, 160) ∧
    programmed (.pwmExact 0 .A 62 16000000) 0 = some (5, 0b0101, 126) := by decide

theorem test_exact_cases_3_4 :
    programmed (.pwmExact 2 .B 440 16000000) 2 = some (6, 0b0111, 142) ∧
    programmed (.pwmExact 0 .A 61 16000000) 0 = some (5, 0b0101, 255) := by decide

/-! ### Duty, init, close: 95 section 4 -/

theorem test_duty_truncates :
    (after (exec (.pwmDuty 1 .A 0x12345) ready)).bind (·.ocrPort 1 .A) = some ⟨16, 0x2345⟩ ∧
    (after (exec (.pwmDuty 0 .B 0x12345) ready)).bind (·.ocrPort 0 .B) = some ⟨8, 0x45⟩ := by decide

theorem test_init :
    (after (exec (.pwmInit 0 .A) State.reset)).bind (·.timer 0) =
      some { Timer.reset .t8_5 with chanA := boundChan } := by decide

/-- The row of 95 section 4 with `CS[0] = 3`, `WGM[0] = FAST_FREE8`, `OCR[0] = [9, 128]`. -/
theorem test_close :
    let tm := { boundTimer .t8_5 with
      cs := 3, wgm := 0b0011, chanA := { boundChan with ocr := 9 }, chanB := { boundChan with ocr := 128 } }
    (after (exec (.pwmClose 0 .B) { ready with timers := [tm] })).bind (·.timer 0) =
      some { tm with cs := 0, wgm := 0, chanB := { boundChan with ocr := 128, com := 0 } } := by decide

/-! ### Messages: 95 section 5 -/

theorem test_checksums :
    [0x00, 0x01, 0x83, 0x80, 0x44, 0xAB].map checksumOf = [0x00, 0xFF, 0x7D, 0x80, 0xBC, 0x55] := by
  decide

theorem test_msg_init :
    (after (exec (.msgInit 0x100 2) { ready with mem := memAB })).map (·.msg) =
      some { mstate := .header, mptr := 0x100, mlen := 2, mcur := 0, mck := 0x7D } := by decide

/-- Program P5: the payload wraps the address space. -/
theorem test_msg_init_wraps :
    (after (exec (.msgInit 0xFFFF 3) { ready with mem := [(0, 0xFF), (1, 0x80), (0xFFFF, 0x01)] })).map
      (·.msg.mck) = some 0x80 := by decide

/-- Trace M2, step 4: the last byte is rejected and the state stays `DATA`. -/
theorem test_step_last_byte_rejected :
    stepped (inFrame .data 1 [false]) = some (.data, 1, some false, []) := by decide

/-- Trace M1, step 3: its acceptance and the move to `CKH` are one step. -/
theorem test_step_last_byte_accepted :
    stepped (inFrame .data 1 [true]) = some (.ckh, 2, some false, [0x42]) := by decide

/-! ### Responses: 95 section 6 -/

theorem test_illegal_words :
    answer State.reset 0x00000000000000000000 = some (true, false) ∧
    answer State.reset 0x01060000000000000000 = some (true, false) ∧
    answer State.reset 0x0201000003E800F42400 = some (true, false) ∧
    answer ready 0x0301000003E800F42400 = some (true, false) ∧
    answer ready 0x05020000003200F42400 = some (true, false) ∧
    answer State.reset 0x11000000000000000000 = some (true, false) := by decide

/-- The zero frequency is not illegal. -/
theorem test_zero_frequency_is_legal :
    answer ready 0x02010000000000F42400 = some (false, false) := by decide

/-! ### Memory -/

theorem test_memory_canonical :
    ((Memory.write [] 0x101 0x42).write 0x100 0x41).write 0x200 0 = memAB ∧
    memAB.write 0x100 0 = [(0x101, 0x42)] ∧ memAB.wf = true := by decide

/-! ### Witnesses: for every statement with hypotheses, states and operands that meet them -/

theorem bound_ready (t : Nat) (ch : Channel) (tm : Timer) (h : ready.timers[t]? = some tm) :
    BoundAt ready t ch tm := by
  refine ⟨h, ?_⟩
  have hm := List.mem_of_getElem? h
  simp only [ready, Config.defaultKinds, List.map, List.mem_cons, List.not_mem_nil, or_false] at hm
  obtain rfl | rfl | rfl := hm <;> cases ch <;> rfl

/-- A state with a command word next. -/
def presents (w : CmdWord) : State := given (inFrame .endMark 2 [true]) [.command w]

theorem test_witness_DecodeOfEncode : (Instr.pwmDuty 7 .B 0xFFFFFFFF).wellFormed = true := by decide

theorem test_witness_EncodeOfDecode :
    decode 0x060FFFFFFFFF00000000 = .ok (.pwmDuty 7 .B 0xFFFFFFFF) := by decide

theorem test_witness_OpcodeTableDecides :
    ∃ row ∈ opcodeRows, Matches row 0x060FFFFFFFFF00000000 :=
  ⟨⟨"PWM.DUTY", 0x06000000000000000000, 0xFFF000000000FFFFFFFF⟩, by decide, by unfold Matches; decide⟩

theorem test_witness_OperandsAreTheFields :
    decode 0x060FFFFFFFFF00000000 = .ok (.pwmDuty 7 .B 0xFFFFFFFF) ∧
    (∀ tm : Timer, ready.timers[0]? = some tm →
      (0x12345 : BitVec 32).toNat % 2 ^ compareBits tm.kind =
        (0x45 : BitVec 32).toNat % 2 ^ compareBits tm.kind) ∧
    (∀ tm : Timer, ready.timers[1]? = some tm →
      (0x12345 : BitVec 32).toNat % 2 ^ compareBits tm.kind =
        (0x2345 : BitVec 32).toNat % 2 ^ compareBits tm.kind) := by
  refine ⟨by decide, ?_, ?_⟩ <;> (intro tm h; cases h; decide)

theorem reserved_of (w : CmdWord) (h : ∀ row ∈ opcodeRows, decide (w &&& row.mask = row.pattern) = false) :
    Reserved w := fun row hr hm => by simpa [Matches] using (h row hr).symm.trans (decide_eq_true hm)

theorem test_witness_ReservedWordsAreIllegal :
    (presents 0).inputs = [.command 0] ∧ Reserved 0 ∧
    (0x08000000000000000000 : CmdWord).toNat / 2 ^ 72 ∉
      [0x01, 0x02, 0x03, 0x04, 0x05, 0x06, 0x07, 0x10, 0x11] ∧
    (∃ row ∈ opcodeRows, ∃ w : CmdWord, w.toNat / 2 ^ 72 = row.pattern.toNat / 2 ^ 72 ∧
      w &&& row.mask ≠ row.pattern) :=
  ⟨rfl, reserved_of 0 (by decide), by decide,
    ⟨"PWM.INIT", 0x01000000000000000000, 0xFFF0FFFFFFFFFFFFFFFF⟩, by decide, 0x01100000000000000000,
    by decide, by decide⟩

theorem test_witness_StepRunsDecodedCommand :
    (presents 0x11000000000000000000).inputs = [.command 0x11000000000000000000] ∧
    decode 0x11000000000000000000 = .ok .msgStep := by decide

/-- For the statements about any step that answers a next state: a command, a host write, a reset, an
empty list. -/
theorem test_witness_step_next :
    (∃ s', step (presents 0x11000000000000000000) = .next s') ∧
    (∃ s', step (given ready [.memWrite 0xFFFF 1]) = .next s') ∧
    (∃ s', step (given ready [.reset]) = .next s') ∧ (∃ s', step ready = .next s') :=
  ⟨⟨_, rfl⟩, ⟨_, rfl⟩, ⟨_, rfl⟩, ⟨_, rfl⟩⟩

theorem test_witness_BlockWaitsForCommand : ready.inputs = [] := rfl

theorem test_witness_ResetInputResets :
    (given ready [.reset]).inputs = [.reset] ∧ ready.timers[2]? = some (boundTimer .t8_7) := by decide

theorem test_witness_HostWriteIsSeen :
    (given (inFrame .data 1 []) [.memWrite 0xFFFF 1]).mem.wf = true ∧
    (given (inFrame .data 1 []) [.memWrite 0xFFFF 1]).inputs = [.memWrite 0xFFFF 1] := by decide

/-- I1 to I6, one state and word each. -/
theorem test_witness_IllegalExactlySixCases_illegal :
    Reserved 0 ∧
    (decode 0x01060000000000000000 = .ok (.pwmInit 3 .A) ∧
      IllegalCommand ready (.pwmInit 3 .A)) ∧
    (decode 0x07010000000000000000 = .ok (.pwmClose 0 .B) ∧
      IllegalCommand State.reset (.pwmClose 0 .B)) ∧
    (decode 0x03000000003200F42400 = .ok (.pwmHint9 0 .A 50 16000000) ∧
      IllegalCommand ready (.pwmHint9 0 .A 50 16000000)) ∧
    (decode 0x05020000003200F42400 = .ok (.pwmExact 1 .A 50 16000000) ∧
      IllegalCommand ready (.pwmExact 1 .A 50 16000000)) ∧
    (decode 0x11000000000000000000 = .ok .msgStep ∧ IllegalCommand State.reset .msgStep) :=
  ⟨reserved_of 0 (by decide), ⟨by decide, by unfold IllegalCommand; decide⟩,
    ⟨by decide, .inr ⟨Timer.reset .t8_5, rfl, rfl⟩⟩,
    ⟨by decide, .inr ⟨boundTimer .t8_5, rfl, by decide⟩⟩,
    ⟨by decide, .inr ⟨boundTimer .t16, rfl, rfl⟩⟩, ⟨by decide, .inl rfl⟩⟩

/-- A legal word in a state. -/
theorem test_witness_IllegalExactlySixCases_legal :
    ¬ (Reserved 0x11000000000000000000 ∨
      ∃ i, decode 0x11000000000000000000 = .ok i ∧ IllegalCommand (presents 0x11000000000000000000) i) := by
  rintro (h | ⟨i, hd, hi⟩)
  · exact h ⟨"MSG.STEP", 0x11000000000000000000, 0xFFFFFFFFFFFFFFFFFFFF⟩ (by decide)
      (by unfold Matches; decide)
  · have hs : i = .msgStep := by
      have hw : decode 0x11000000000000000000 = .ok .msgStep := by decide
      exact Except.ok.inj (hd.symm.trans hw)
    subst hs
    obtain h | h := hi <;> exact absurd h (by decide)

theorem test_witness_ResponseBits :
    (presents 0x11000000000000000000).inputs = [.command 0x11000000000000000000] := rfl

/-- The first two clauses at `D = 62` (below the entry 64) and `D = 64` (on it), the off-end clause
at 2048. -/
theorem test_witness_SelectScansAsReplicated :
    ((table .t8_5)[2]? = some 64 ∧
      (∀ j e', j < 2 → (table .t8_5)[j]? = some e' → e' ≤ 62 ∧ 2 * e' ≤ 62) ∧ 64 > 62 ∧
      (∀ j e', j < 2 → (table .t8_5)[j]? = some e' → e' ≤ 64 ∧ 2 * e' ≤ 64) ∧ 64 ≤ 64 ∧ 2 * 64 > 64) ∧
    (table .t8_5 ≠ [] ∧ ∀ e' ∈ table .t8_5, e' ≤ 2048 ∧ 2 * e' ≤ 2048) := by
  refine ⟨⟨rfl, ?_, by decide, ?_, by decide, by decide⟩, by decide, by decide⟩ <;>
  · intro j e' hj he
    interval_cases j <;> (cases he; decide)

theorem test_witness_SelectByRanges : select 512 (divisorTable .t8_7) = (.fast, 6) := by decide

theorem test_witness_PatternsNameModes :
    waveName .t16 0b1111 = some (.ocra .fast) ∧ waveName .t8_5 0b0110 = none := by decide

theorem test_witness_HintProgramsClockAndWave :
    (BoundAt ready 0 .B (boundTimer .t8_5) ∧ WidthFits .w8 (boundTimer .t8_5) ∧
      select (quotient 16000000 1000 .w8) (table .t8_5) = (.fast, 2)) ∧
    (BoundAt ready 1 .A (boundTimer .t16) ∧ WidthFits .w9 (boundTimer .t16) ∧
      select (quotient 16000000 1000 .w9) (table .t16) = (.fast, 2)) ∧
    (BoundAt ready 1 .A (boundTimer .t16) ∧ WidthFits .w10 (boundTimer .t16) ∧
      select (quotient 16000000 50 .w10) (table .t16) = (.pc, 3)) ∧
    (1000 : BitVec 32) ≠ 0 ∧ (50 : BitVec 32) ≠ 0 :=
  ⟨⟨bound_ready _ _ _ rfl, fun h => absurd rfl h, by decide⟩,
    ⟨bound_ready _ _ _ rfl, fun _ => rfl, by decide⟩,
    ⟨bound_ready _ _ _ rfl, fun _ => rfl, by decide⟩, by decide, by decide⟩

theorem test_witness_ZeroFrequencyLeavesOpenValues :
    (BoundAt ready 1 .A (boundTimer .t16) ∧ WidthFits .w10 (boundTimer .t16)) ∧
    (BoundAt ready 0 .B (boundTimer .t8_5) ∧ (boundTimer .t8_5).kind ≠ .t16) :=
  ⟨⟨bound_ready _ _ _ rfl, fun _ => rfl⟩, bound_ready _ _ _ rfl, by decide⟩

/-- One above the maximum of each width at 16 MHz. -/
theorem test_witness_AboveMaximumUsesPrescalerOne :
    BoundAt ready 1 .A (boundTimer .t16) ∧ (∀ w, WidthFits w (boundTimer .t16)) ∧
    (62501 : BitVec 32).toNat > (16000000 : BitVec 32).toNat / 2 ^ CounterWidth.w8.bits ∧
    (31251 : BitVec 32).toNat > (16000000 : BitVec 32).toNat / 2 ^ CounterWidth.w9.bits ∧
    (15626 : BitVec 32).toNat > (16000000 : BitVec 32).toNat / 2 ^ CounterWidth.w10.bits :=
  ⟨bound_ready _ _ _ rfl, fun _ _ => rfl, by decide, by decide, by decide⟩

/-- The largest quotient the statement covers, 2047. -/
theorem test_witness_HintFrequencyStrictlyBelow :
    BoundAt ready 0 .A (boundTimer .t8_5) ∧ WidthFits .w8 (boundTimer .t8_5) ∧ (1 : BitVec 32) ≠ 0 ∧
    quotient 524032 1 .w8 = 2047 :=
  ⟨bound_ready _ _ _ rfl, fun h => absurd rfl h, by decide, by decide⟩

/-- Operands for each of the four cases: `D = 0`, 2, 1 and 1024, the smallest of each. -/
theorem test_witness_ExactFourCases :
    BoundAt ready 0 .B (boundTimer .t8_5) ∧ (boundTimer .t8_5).kind ≠ .t16 ∧
    (quotient 16000000 62501 .w8 = 0 ∧ select 0 (table .t8_5) = (.fast, 0)) ∧
    (quotient 16000000 31250 .w8 = 2 ∧ select 2 (table .t8_5) = (.fast, 1)) ∧
    (quotient 16000000 62500 .w8 = 1 ∧ select 1 (table .t8_5) = (.pc, 0) ∧
      0 + 1 < (table .t8_5).length) ∧
    (quotient 16000000 61 .w8 = 1024 ∧ select 1024 (table .t8_5) = (.pc, 4) ∧
      4 + 1 = (table .t8_5).length) :=
  ⟨bound_ready _ _ _ rfl, by decide, by decide, by decide, by decide, by decide⟩

/-- The same operands on the 7-entry table meet the clauses of the range statement; the quotient 1023 is
the largest of case 2, 1024 the smallest of case 4. -/
theorem test_witness_ExactTopRange :
    BoundAt ready 2 .B (boundTimer .t8_7) ∧ (boundTimer .t8_7).kind ≠ .t16 ∧
    (quotient 16000000 62501 .w8 = 0 ∧ select 0 (table .t8_7) = (.fast, 0)) ∧
    (quotient 261888 1 .w8 = 1023 ∧ select 1023 (table .t8_7) = (.fast, 6)) ∧
    (quotient 16000000 62500 .w8 = 1 ∧ select 1 (table .t8_7) = (.pc, 0) ∧
      0 + 1 < (table .t8_7).length) ∧
    (quotient 262144 1 .w8 = 1024 ∧ select 1024 (table .t8_7) = (.pc, 6) ∧
      6 + 1 = (table .t8_7).length) :=
  ⟨bound_ready _ _ _ rfl, by decide, by decide, by decide, by decide, by decide⟩

/-- The largest quotient the statement covers, 1023. -/
theorem test_witness_ExactTopFedBack :
    BoundAt ready 2 .B (boundTimer .t8_7) ∧ (boundTimer .t8_7).kind ≠ .t16 ∧ (1 : BitVec 32) ≠ 0 ∧
    quotient 261888 1 .w8 = 1023 :=
  ⟨bound_ready _ _ _ rfl, by decide, by decide, by decide⟩

theorem test_witness_ExactRefusedOnSixteenBit :
    ready.timers[1]? = some (boundTimer .t16) ∧ (boundTimer .t16).kind = .t16 := by decide

/-- For the duty and close statements: a bound channel of each kind. -/
theorem test_witness_bound_channels :
    BoundAt ready 0 .A (boundTimer .t8_5) ∧ BoundAt ready 1 .B (boundTimer .t16) ∧
    BoundAt ready 2 .A (boundTimer .t8_7) :=
  ⟨bound_ready _ _ _ rfl, bound_ready _ _ _ rfl, bound_ready _ _ _ rfl⟩

theorem test_witness_InitBindsChannel : State.reset.timers[2]? = some (Timer.reset .t8_7) := by decide

theorem test_witness_InitAgainIsHarmless : 2 < State.reset.timers.length := by decide

/-- For the statements about any command that answers a next state: a close, a frequency command, an
unbound one and both message commands. -/
theorem test_witness_exec_next :
    (∃ s', exec (.pwmClose 0 .B) ready = .next s') ∧ (∃ s', exec (.pwmClose 0 .B) State.reset = .next s') ∧
    (∃ s', exec (.pwmExact 2 .B 440 16000000) ready = .next s') ∧
    (∃ s', exec (.msgInit 0xFFFF 0xFFFF) ready = .next s') ∧
    (∃ s', exec .msgStep (inFrame .data 1 [true]) = .next s') :=
  ⟨⟨_, rfl⟩, ⟨_, rfl⟩, ⟨_, rfl⟩, ⟨_, rfl⟩, ⟨_, rfl⟩⟩

theorem test_witness_CloseKeepsBinding :
    BoundAt ready 1 .A (boundTimer .t16) ∧
    ∃ s1, exec (.pwmClose 1 .A) ready = .next s1 ∧
      Instr.pwmHint10 1 .A 50 16000000 ∈ frequencyCommands 1 .A 50 16000000 ∧
      ¬ IllegalCommand s1 (.pwmHint10 1 .A 50 16000000) := by
  refine ⟨bound_ready _ _ _ rfl, _, rfl, by decide, ?_⟩
  rintro ((h | ⟨tm, ht, hb⟩) | ⟨tm, ht, hk⟩)
  · exact absurd h (by decide)
  · cases ht; exact absurd hb (by decide)
  · cases ht; exact absurd hk (by decide)

/-- Two states that differ in the other unit. -/
theorem test_witness_UnitsDoNotObserveEachOther :
    (isPwm (.pwmInit 0 .A) = true ∧ ready.timers = (inFrame .data 1 [true]).timers ∧
      ready.pwmDraws = (inFrame .data 1 [true]).pwmDraws ∧ ready.msg ≠ (inFrame .data 1 [true]).msg) ∧
    (isPwm .msgStep = false ∧ ready.msg = State.reset.msg ∧ ready.mem = State.reset.mem ∧
      ready.answers = State.reset.answers ∧ ready.attempts = State.reset.attempts ∧
      ready.acceptDraws = State.reset.acceptDraws ∧ ready.timers ≠ State.reset.timers) := by decide

/-- Two timers of the same wiring with other register values, and a command that writes them. -/
theorem test_witness_WrittenValuesFromOperands :
    pairOf (.pwmHint8 0 .A 1000 16000000) = some (0, .A) ∧
    SameWiring (boundTimer .t8_5) { boundTimer .t8_5 with cs := 5, wgm := 0b0111 } ∧
    ∃ s' s2' tm' tm2',
      exec (.pwmHint8 0 .A 1000 16000000) { ready with timers := [boundTimer .t8_5] } = .next s' ∧
      exec (.pwmHint8 0 .A 1000 16000000)
        { ready with timers := [{ boundTimer .t8_5 with cs := 5, wgm := 0b0111 }] } = .next s2' ∧
      s'.timers[0]? = some tm' ∧ s2'.timers[0]? = some tm2' :=
  ⟨rfl, ⟨rfl, rfl, rfl⟩, _, _, _, _, rfl, rfl, rfl, rfl⟩

/-- Two memories that differ outside the byte a `MSG.STEP` reads. -/
theorem test_witness_CommandsReadOnlyTheirBytes :
    (inFrame .data 1 [true]).msg.mstate = .data ∧
    Memory.read [(0x101, 0x42), (0x200, 7)] (byteAddr 0x100 1) = memAB.read (byteAddr 0x100 1) ∧
    ([(0x101, 0x42), (0x200, 7)] : Memory) ≠ memAB := by decide

/-- The sums the special values of the checksum speak of: 0, 0x80, 1 and 0x83 (95 section 5.1). -/
theorem test_witness_MsgInitFormsChecksum :
    sumMod [(0, 0x80), (1, 0x80)] 0 2 = 0 ∧ sumMod [(0, 0x80)] 0 1 = 0x80 ∧ sumMod [(0, 1)] 0 1 = 1 ∧
    sumMod memAB 0x100 2 = 0x83 := by decide

/-- Both answers, in every state that attempts its own byte. -/
theorem test_witness_arms :
    ∀ m ∈ [MState.header, .ckh, .ckl, .endMark], ∀ a ∈ [true, false],
      (inFrame m 0 [a]).msg.mstate = m ∧ (inFrame m 0 [a]).nextAnswer = a := by decide

/-- A rejected header attempt leaves a state that meets the hypotheses of the second clause. -/
theorem test_witness_HeaderArm :
    (inFrame .header 0 [false, true]).nextAnswer = false ∧
    stepped (inFrame .header 0 [false, true]) = some (.header, 0, some false, []) := by decide

/-- The clauses of the `DATA` arm: a byte that is not the last, the last, and the empty payload. -/
theorem test_witness_DataArm :
    (inFrame .data 0 [true]).msg.mcur.toNat + 1 < (inFrame .data 0 [true]).msg.mlen.toNat ∧
    (inFrame .data 1 [true]).msg.mcur.toNat + 1 = (inFrame .data 1 [true]).msg.mlen.toNat ∧
    (inFrame .data 1 [false]).nextAnswer = false ∧
    (inEmptyFrame .data []).msg.mlen.toNat ≤ (inEmptyFrame .data []).msg.mcur.toNat := by decide

/-- `done = 1` happens. -/
theorem test_witness_EndArm :
    stepped (inFrame .endMark 2 [true]) = some (.sent, 2, some true, [0x0A]) := by decide

theorem test_witness_StepWithoutFrameIsIllegal :
    State.reset.msg.mstate = .idle ∧ (inFrame .sent 2 []).msg.mstate = .sent := by decide

/-- Legal contexts with and without an attempt to make. -/
theorem test_witness_OneAttemptPerStep :
    (inFrame .data 1 [true]).msg.Inv ∧ (inEmptyFrame .data []).msg.Inv ∧ (inFrame .ckh 2 [true]).msg.Inv := by
  decide

theorem test_witness_RejectionChangesNothing :
    (∀ m ∈ [MState.header, .ckh, .ckl, .endMark], (inFrame m 0 [false]).nextAnswer = false) ∧
    (inFrame .data 1 [false]).nextAnswer = false ∧
    (inFrame .data 1 [false]).msg.mcur.toNat < (inFrame .data 1 [false]).msg.mlen.toNat := by decide

/-- In the frame after `3A 41`, with a `MSG.STEP` next. -/
theorem test_witness_WireIsTheFrameSoFar :
    let s := given { inFrame .data 1 [true] with
      attempts := [⟨0x3A, true⟩, ⟨0x41, false⟩, ⟨0x41, true⟩] } [.command 0x11000000000000000000]
    s.msg.Inv ∧ FrameSoFar [] s ∧ s.inputs.head? = some (.command 0x11000000000000000000) ∧
      (∃ s', step s = .next s') ∧ KeepsFrame s (.command 0x11000000000000000000) := by
  refine ⟨by decide, by unfold FrameSoFar; decide, rfl, ⟨_, rfl⟩, ?_⟩
  intro ptr len h
  have hw : decode 0x11000000000000000000 = .ok .msgStep := by decide
  exact Instr.noConfusion (Except.ok.inj (hw.symm.trans h))

/-- Host writes just below and just above the payload 0x0100 to 0x0101 leave the frame what it is; one to
its last byte does not. -/
theorem test_witness_KeepsFrame_memWrite :
    KeepsFrame (inFrame .data 1 []) (.memWrite 0x0FF 7) ∧
    KeepsFrame (inFrame .data 1 []) (.memWrite 0x102 7) ∧
    ¬ KeepsFrame (inFrame .data 1 []) (.memWrite 0x101 7) := by
  refine ⟨⟨by decide, ?_⟩, ⟨by decide, ?_⟩, fun h => h.2 ⟨1, by decide, by decide⟩⟩ <;>
  · rintro ⟨i, hi, ha⟩
    have hi : i < 2 := hi
    interval_cases i <;> exact absurd ha (by decide)

/-- The frame of trace M1 has its checksum, and `MSG.STEP`, a write outside the payload, a `MSG.INIT` and
a reset all answer a next state there. -/
theorem test_witness_ChecksumStaysFormed :
    (inFrame .data 1 [true]).ChecksumFormed ∧ (inFrame .data 1 [true]).msg.mstate ≠ .idle ∧
    (∃ s', step (given (inFrame .data 1 [true]) [.command 0x11000000000000000000]) = .next s') ∧
    (∃ s', step (given (inFrame .data 1 [true]) [.memWrite 0x102 7]) = .next s') ∧
    (∃ s', step (given (inFrame .data 1 [true]) [.command 0x10000000010000000002]) = .next s') ∧
    (∃ s', step (given (inFrame .data 1 [true]) [.reset]) = .next s') :=
  ⟨by decide, by decide, ⟨_, rfl⟩, ⟨_, rfl⟩, ⟨_, rfl⟩, ⟨_, rfl⟩⟩

/-- A host write to a payload byte ends it: that event has to be excluded. -/
theorem test_payload_write_breaks_checksum :
    (after (step (given (inFrame .data 1 [true]) [.memWrite 0x101 7]))).map
      (fun s => decide s.ChecksumFormed) = some false := by decide

/-- Trace M2's answers with one more left over, and the empty payload of M3. -/
theorem test_witness_FrameCompletes :
    let given := [false, true, true, false, false, true, true, false, true, true]
    ((inFrame .header 0 (given ++ [true])).msg.mcur = 0 ∧
      given.count true = (inFrame .header 0 []).msg.mlen.toNat + 4 ∧ given.getLast? = some true ∧
      (10 : Nat) = given.length + (if (inFrame .header 0 []).msg.mlen = 0 then 1 else 0)) ∧
    (([true, true, true, true] : List Bool).count true = (inEmptyFrame .header []).msg.mlen.toNat + 4 ∧
      (5 : Nat) = 4 + (if (inEmptyFrame .header []).msg.mlen = 0 then 1 else 0)) := by decide

theorem test_witness_StepKeepsInvariant :
    (given (inFrame .data 1 [true]) [.command 0x11000000000000000000]).Inv := by decide

theorem test_witness_ContractKeepsNamedModes :
    (given ready [.command 0x0201000003E800F42400]).Named ∧
    HostEvent.honoursContract (.command 0x0201000003E800F42400) = true ∧
    HostEvent.honoursContract (.command 0x02010000000000F42400) = false := by decide

end Sys2Proof.Tests
end

section
/-! The memory reads of the commands (spec/20_memory.md R41).
Replacing payload memory commutes with every command, as long as the replacement holds the same
bytes at the addresses the command reads. That no command writes memory follows: the memory of the
state itself is such a replacement. -/

namespace Sys2Proof.Machine

open Sys2Proof.Claims

/-! ### Replacing payload memory -/

/-- The state with payload memory replaced. -/
def State.withMem (s : State) (mem : Memory) : State := { s with mem := mem }

/-- The outcome with payload memory replaced in the next state, if there is one. -/
def nextWithMem (mem : Memory) : Result → Result
  | .next s => .next (s.withMem mem)
  | .fault r => .fault r
  | .refused r => .refused r

@[simp] theorem State.withMem_msg (s : State) (mem : Memory) : (s.withMem mem).msg = s.msg := rfl
@[simp] theorem State.withMem_mem (s : State) (mem : Memory) : (s.withMem mem).mem = mem := rfl
@[simp] theorem State.withMem_self (s : State) : s.withMem s.mem = s := rfl
@[simp] theorem State.withMem_timer (s : State) (mem : Memory) (t : Nat) :
    (s.withMem mem).timer t = s.timer t := rfl
@[simp] theorem State.withMem_nextAnswer (s : State) (mem : Memory) :
    (s.withMem mem).nextAnswer = s.nextAnswer := rfl
@[simp] theorem State.withMem_tryWrite (s : State) (mem : Memory) (b : Byte) :
    (s.withMem mem).tryWrite b = (s.tryWrite b).withMem mem := rfl
@[simp] theorem State.withMem_setMState (s : State) (mem : Memory) (m : MState) :
    (s.withMem mem).setMState m = (s.setMState m).withMem mem := rfl
@[simp] theorem State.withMem_advanceCursor (s : State) (mem : Memory) :
    (s.withMem mem).advanceCursor = s.advanceCursor.withMem mem := rfl

@[simp] theorem nextWithMem_next (s : State) (mem : Memory) :
    nextWithMem mem (.next s) = .next (s.withMem mem) := rfl
@[simp] theorem illegal_withMem (s : State) (mem : Memory) :
    illegal (s.withMem mem) = nextWithMem mem (illegal s) := rfl
@[simp] theorem respond_withMem (done : Bool) (s : State) (mem : Memory) :
    respond done (s.withMem mem) = nextWithMem mem (respond done s) := rfl

/-! ### The bytes a command reads -/

/-- `mem` holds the bytes of the state's memory that the command reads (20 R41). -/
def SameBytesRead (mem : Memory) (s : State) : Instr → Prop
  | .msgInit ptr len =>
      ∀ k, k < len.toNat → mem.read (payloadAddr ptr k) = s.mem.read (payloadAddr ptr k)
  | .msgStep =>
      s.msg.mstate = .data → s.msg.mcur.toNat < s.msg.mlen.toNat →
        mem.read (payloadAddr s.msg.mptr s.msg.mcur.toNat) =
          s.mem.read (payloadAddr s.msg.mptr s.msg.mcur.toNat)
  | _ => True

theorem sameBytesRead_self (s : State) (i : Instr) : SameBytesRead s.mem s i := by
  cases i with
  | msgInit ptr len => exact fun _ _ => rfl
  | msgStep => exact fun _ _ => rfl
  | _ => trivial

/-! ### The legality checks read no memory -/

section Checks

variable {t : Nat} {ch : Channel} {s : State} {mem : Memory} {k k' : Timer → Result}

theorem onTimer_withMem (h : ∀ tm, k' tm = nextWithMem mem (k tm)) :
    onTimer t (s.withMem mem) k' = nextWithMem mem (onTimer t s k) := by
  cases ht : s.timer t with
  | none => simp [onTimer, ht]
  | some tm => simp [onTimer, ht, h]

theorem onBound_withMem (h : ∀ tm, k' tm = nextWithMem mem (k tm)) :
    onBound t ch (s.withMem mem) k' = nextWithMem mem (onBound t ch s k) :=
  onTimer_withMem fun tm => by
    rw [h, illegal_withMem, apply_ite (nextWithMem mem)]

theorem onBound16_withMem (h : ∀ tm, k' tm = nextWithMem mem (k tm)) :
    onBound16 t ch (s.withMem mem) k' = nextWithMem mem (onBound16 t ch s k) :=
  onBound_withMem fun tm => by
    rw [h, illegal_withMem, apply_ite (nextWithMem mem)]

theorem onBound8_withMem (h : ∀ tm, k' tm = nextWithMem mem (k tm)) :
    onBound8 t ch (s.withMem mem) k' = nextWithMem mem (onBound8 t ch s k) :=
  onBound_withMem fun tm => by
    rw [h, illegal_withMem, apply_ite (nextWithMem mem)]

end Checks

/-! ### The effects of the frequency commands read no memory -/

theorem hintEffect_withMem (w : CounterWidth) (t : Nat) (f cpu : BitVec 32) (s : State)
    (mem : Memory) (tm : Timer) :
    hintEffect w t f cpu (s.withMem mem) tm = nextWithMem mem (hintEffect w t f cpu s tm) := by
  unfold hintEffect
  split <;> rfl

theorem exactEffect_withMem (t : Nat) (f cpu : BitVec 32) (s : State) (mem : Memory) (tm : Timer) :
    exactEffect t f cpu (s.withMem mem) tm = nextWithMem mem (exactEffect t f cpu s tm) := by
  unfold exactEffect
  split <;> rfl

/-! ### The message commands -/

/-- The claims' address of a payload byte is the model's (20 R43). -/
theorem byteAddr_eq_payloadAddr (ptr : Addr) (i : Nat) : byteAddr ptr i = payloadAddr ptr i := by
  apply BitVec.eq_of_toNat_eq
  simp [byteAddr, payloadAddr]

theorem attemptMove_withMem (b : Byte) (m : MState) (done : Bool) (s : State) (mem : Memory) :
    attemptMove b m done (s.withMem mem) = nextWithMem mem (attemptMove b m done s) := by
  cases ha : s.nextAnswer <;> simp [attemptMove, ha]

/-- The one byte the attempt of the `DATA` arm reads is the one at the cursor, if there is one. -/
theorem attemptPayload_withMem {s : State} {mem : Memory}
    (h : s.msg.mcur.toNat < s.msg.mlen.toNat →
      mem.read (payloadAddr s.msg.mptr s.msg.mcur.toNat) =
        s.mem.read (payloadAddr s.msg.mptr s.msg.mcur.toNat)) :
    attemptPayload (s.withMem mem) = (attemptPayload s).withMem mem := by
  by_cases hc : s.msg.mcur.toNat < s.msg.mlen.toNat
  · cases ha : s.nextAnswer <;> simp [attemptPayload, hc, ha, h hc]
  · simp [attemptPayload, hc]

theorem completePayload_withMem (s : State) (mem : Memory) :
    completePayload (s.withMem mem) = (completePayload s).withMem mem := by
  by_cases hc : s.msg.mlen.toNat ≤ s.msg.mcur.toNat <;> simp [completePayload, hc]

theorem execMsgInit_withMem {ptr len : BitVec 16} {s : State} {mem : Memory}
    (h : SameBytesRead mem s (.msgInit ptr len)) :
    execMsgInit ptr len (s.withMem mem) = nextWithMem mem (execMsgInit ptr len s) := by
  simp only [execMsgInit, State.withMem_mem, payloadSum_congr h]
  rfl

theorem execMsgStep_withMem {s : State} {mem : Memory} (h : SameBytesRead mem s .msgStep) :
    execMsgStep (s.withMem mem) = nextWithMem mem (execMsgStep s) := by
  cases hm : s.msg.mstate with
  | idle => simp [execMsgStep, hm]
  | header => simp [execMsgStep, hm, attemptMove_withMem]
  | data =>
    rw [execMsgStep_data (s := s.withMem mem) hm, execMsgStep_data hm,
      attemptPayload_withMem (h hm), completePayload_withMem, respond_withMem]
  | ckh => simp [execMsgStep, hm, attemptMove_withMem]
  | ckl => simp [execMsgStep, hm, attemptMove_withMem]
  | endMark => simp [execMsgStep, hm, attemptMove_withMem]
  | sent => simp [execMsgStep, hm]

/-! ### Every command -/

/-- A command and a replacement of memory that agrees on the bytes it reads commute. -/
theorem exec_withMem {i : Instr} {s : State} {mem : Memory} (h : SameBytesRead mem s i) :
    exec i (s.withMem mem) = nextWithMem mem (exec i s) := by
  cases i with
  | pwmInit t ch => exact onTimer_withMem fun _ => rfl
  | pwmHint8 t ch f cpu => exact onBound_withMem (hintEffect_withMem .w8 t f cpu s mem)
  | pwmHint9 t ch f cpu => exact onBound16_withMem (hintEffect_withMem .w9 t f cpu s mem)
  | pwmHint10 t ch f cpu => exact onBound16_withMem (hintEffect_withMem .w10 t f cpu s mem)
  | pwmExact t ch f cpu => exact onBound8_withMem (exactEffect_withMem t f cpu s mem)
  | pwmDuty t ch value => exact onBound_withMem fun _ => rfl
  | pwmClose t ch => exact onBound_withMem fun _ => rfl
  | msgInit ptr len => exact execMsgInit_withMem h
  | msgStep => exact execMsgStep_withMem h

/-- No command writes memory (20 R41): replacing memory by itself before the command is no change, and
by `exec_withMem` the next state then holds that memory. -/
theorem exec_next_mem {i : Instr} {s s' : State} (h : exec i s = .next s') : s'.mem = s.mem := by
  have hself := exec_withMem (sameBytesRead_self s i)
  rw [State.withMem_self, h, nextWithMem_next] at hself
  have hs' : s' = s'.withMem s.mem := Host.Outcome.next.inj hself
  rw [hs', State.withMem_mem]

/-- Settles O38: replacing memory by one with the same bytes at the addresses read commutes with the
command (`exec_withMem`), and no command writes memory (`exec_next_mem`). -/
theorem commandsReadOnlyTheirBytes : Obligations.CommandsReadOnlyTheirBytes := by
  unfold Obligations.CommandsReadOnlyTheirBytes
  intro i s s' mem hexec hinit hstep
  simp only [byteAddr_eq_payloadAddr] at hinit hstep
  have hsame : SameBytesRead mem s i := by
    cases i with
    | msgInit ptr len => exact hinit ptr len rfl
    | msgStep => exact hstep rfl
    | _ => trivial
  have hcomm := exec_withMem hsame
  rw [hexec] at hcomm
  exact ⟨hcomm, exec_next_mem hexec⟩

end Sys2Proof.Machine
end

section
/-! The opcode table (spec/30_encoding.md R58).
The rows are read field by field: `w AND mask = match` says that the `op` byte is the row's and that the
must-be-zero fields are zero. Decoding to a command of the row says the same, so both sides of O3 meet in
`MustBeZero`. -/

namespace Sys2Proof

open Sys2Proof.Claims
open Sys2Proof.Laws.EncodedRow (opByte)

/-! ### Masking a word, field by field -/

@[simp] theorem fieldOp_and (w m : CmdWord) : fieldOp (w &&& m) = fieldOp w &&& fieldOp m :=
  BitVec.extractLsb'_and
@[simp] theorem fieldSel_and (w m : CmdWord) : fieldSel (w &&& m) = fieldSel w &&& fieldSel m :=
  BitVec.extractLsb'_and
@[simp] theorem fieldA_and (w m : CmdWord) : fieldA (w &&& m) = fieldA w &&& fieldA m :=
  BitVec.extractLsb'_and
@[simp] theorem fieldB_and (w m : CmdWord) : fieldB (w &&& m) = fieldB w &&& fieldB m :=
  BitVec.extractLsb'_and

/-- A word is known by its four fields (30 R55). -/
theorem eq_cmdWord_iff {w : CmdWord} {op sel : BitVec 8} {a b : BitVec 32} :
    w = cmdWord op sel a b ↔ fieldOp w = op ∧ fieldSel w = sel ∧ fieldA w = a ∧ fieldB w = b where
  mp := by rintro rfl; simp
  mpr := by rintro ⟨rfl, rfl, rfl, rfl⟩; exact (cmdWord_fields w).symm

/-- The mask of `m` ones above `n` zeros. -/
def upperMask (m n : Nat) : BitVec (m + n) := BitVec.allOnes m ++ 0#n

/-- Under an upper mask a value is zero exactly when its upper part is. -/
theorem and_upperMask_eq_zero {m n : Nat} (x : BitVec (m + n)) :
    x &&& upperMask m n = 0#(m + n) ↔ x.extractLsb' n m = 0#m := by
  have hx : x &&& upperMask m n = x.extractLsb' n m ++ 0#n := calc
    x &&& upperMask m n
      = (x.extractLsb' n m ++ x.extractLsb' 0 n) &&& (BitVec.allOnes m ++ 0#n) := by
        rw [BitVec.extractLsb'_append_extractLsb', upperMask]
    _ = x.extractLsb' n m ++ 0#n := by rw [BitVec.and_append, BitVec.and_allOnes, BitVec.and_zero]
  rw [hx, ← BitVec.zero_append_zero, BitVec.append_left_inj]

/-! ### The rows, one per command -/

/-- The mask of a command's row: ones in `op` and in the must-be-zero fields (30 R58). -/
def maskOf : Instr → CmdWord
  | .pwmInit _ _ | .pwmClose _ _ =>
      cmdWord (BitVec.allOnes 8) (upperMask 4 4) (BitVec.allOnes 32) (BitVec.allOnes 32)
  | .pwmHint8 _ _ _ _ | .pwmHint9 _ _ _ _ | .pwmHint10 _ _ _ _ | .pwmExact _ _ _ _ =>
      cmdWord (BitVec.allOnes 8) (upperMask 4 4) 0#32 0#32
  | .pwmDuty _ _ _ => cmdWord (BitVec.allOnes 8) (upperMask 4 4) 0#32 (BitVec.allOnes 32)
  | .msgInit _ _ => cmdWord (BitVec.allOnes 8) (BitVec.allOnes 8) (upperMask 16 16) (upperMask 16 16)
  | .msgStep => cmdWord (BitVec.allOnes 8) (BitVec.allOnes 8) (BitVec.allOnes 32) (BitVec.allOnes 32)

/-- The table row of a command, from its parts. -/
def rowOf (i : Instr) : OpcodeRow := ⟨mnemonicOf i, cmdWord (opByte i) 0#8 0#32 0#32, maskOf i⟩

/-- The table is the rows of one command of each kind. -/
theorem opcodeRows_eq_map_rowOf :
    opcodeRows = [.pwmInit 0 .A, .pwmHint8 0 .A 0 0, .pwmHint9 0 .A 0 0, .pwmHint10 0 .A 0 0,
      .pwmExact 0 .A 0 0, .pwmDuty 0 .A 0, .pwmClose 0 .A, .msgInit 0 0, .msgStep].map rowOf := by
  decide

theorem rowOf_mem_opcodeRows (i : Instr) : rowOf i ∈ opcodeRows := by
  rw [opcodeRows_eq_map_rowOf]
  cases i <;> simp [rowOf, mnemonicOf, opByte, maskOf]

theorem exists_rowOf_of_mem {row : OpcodeRow} (h : row ∈ opcodeRows) : ∃ i, row = rowOf i := by
  rw [opcodeRows_eq_map_rowOf] at h
  obtain ⟨i, -, rfl⟩ := List.mem_map.mp h
  exact ⟨i, rfl⟩

/-- Two rows with the same mnemonic are the same row. -/
theorem eq_of_mnemonic_eq : ∀ row ∈ opcodeRows, ∀ row2 ∈ opcodeRows,
    row.mnemonic = row2.mnemonic → row = row2 := by
  decide

/-! ### A row's fields and the decoder's tests -/

/-- The must-be-zero fields of a command are zero in the word (30 R57). -/
def MustBeZero (w : CmdWord) : Instr → Prop
  | .pwmInit _ _ | .pwmClose _ _ => fieldRsv w = 0#4 ∧ fieldA w = 0#32 ∧ fieldB w = 0#32
  | .pwmHint8 _ _ _ _ | .pwmHint9 _ _ _ _ | .pwmHint10 _ _ _ _ | .pwmExact _ _ _ _ => fieldRsv w = 0#4
  | .pwmDuty _ _ _ => fieldRsv w = 0#4 ∧ fieldB w = 0#32
  | .msgInit _ _ => fieldSel w = 0#8 ∧ fieldAHi w = 0#16 ∧ fieldBHi w = 0#16
  | .msgStep => fieldSel w = 0#8 ∧ fieldA w = 0#32 ∧ fieldB w = 0#32

theorem fieldSel_and_upperMask (w : CmdWord) :
    fieldSel w &&& upperMask 4 4 = 0#8 ↔ fieldRsv w = 0#4 := by
  rw [fieldRsv_eq_sel]; exact and_upperMask_eq_zero _
theorem fieldA_and_upperMask (w : CmdWord) :
    fieldA w &&& upperMask 16 16 = 0#32 ↔ fieldAHi w = 0#16 := by
  rw [fieldAHi_eq]; exact and_upperMask_eq_zero _
theorem fieldB_and_upperMask (w : CmdWord) :
    fieldB w &&& upperMask 16 16 = 0#32 ↔ fieldBHi w = 0#16 := by
  rw [fieldBHi_eq]; exact and_upperMask_eq_zero _

/-- A word matches a command's row when it has its `op` byte and zeros where the row wants them. -/
theorem matches_rowOf {w : CmdWord} {i : Instr} :
    Matches (rowOf i) w ↔ fieldOp w = opByte i ∧ MustBeZero w i := by
  simp only [Matches, rowOf, eq_cmdWord_iff, fieldOp_and, fieldSel_and, fieldA_and, fieldB_and]
  cases i <;>
    simp only [maskOf, fieldOp_cmdWord, fieldSel_cmdWord, fieldA_cmdWord, fieldB_cmdWord,
      BitVec.and_allOnes, BitVec.and_zero, true_and, and_true, MustBeZero,
      fieldSel_and_upperMask, fieldA_and_upperMask, fieldB_and_upperMask]

/-- A decoded word has the `op` byte of its command and zeros in the must-be-zero fields. -/
theorem op_mustBeZero_of_decode {w : CmdWord} {i : Instr} (h : decode w = .ok i) :
    fieldOp w = opByte i ∧ MustBeZero w i := by
  unfold decode at h
  split at h
  case h_10 => cases h
  all_goals
    next hop =>
      obtain ⟨hz, rfl⟩ := whenZero_ok h
      exact ⟨BitVec.eq_of_toNat_eq hop, by simpa [MustBeZero, and_assoc] using hz⟩

/-- A word with the `op` byte of a command and zeros in its must-be-zero fields decodes to a command of
the same kind. -/
theorem exists_decode_of_mustBeZero {w : CmdWord} {i : Instr} (hop : fieldOp w = opByte i)
    (hz : MustBeZero w i) : ∃ j, decode w = .ok j ∧ mnemonicOf j = mnemonicOf i := by
  cases i <;> simp only [opByte, MustBeZero] at hop hz <;>
    simp [decode, whenZero, hop, hz, mnemonicOf]

/-! ### The statement -/

theorem matches_rowOf_of_decode {w : CmdWord} {i : Instr} (h : decode w = .ok i) :
    Matches (rowOf i) w :=
  matches_rowOf.mpr (op_mustBeZero_of_decode h)

theorem exists_decode_of_matches {row : OpcodeRow} {w : CmdWord} (hrow : row ∈ opcodeRows)
    (h : Matches row w) : ∃ i, decode w = .ok i ∧ mnemonicOf i = row.mnemonic := by
  obtain ⟨i, rfl⟩ := exists_rowOf_of_mem hrow
  obtain ⟨hop, hz⟩ := matches_rowOf.mp h
  exact exists_decode_of_mustBeZero hop hz

theorem matches_iff_decode {row : OpcodeRow} (hrow : row ∈ opcodeRows) (w : CmdWord) :
    Matches row w ↔ ∃ i, decode w = .ok i ∧ mnemonicOf i = row.mnemonic where
  mp := exists_decode_of_matches hrow
  mpr := by
    rintro ⟨i, hi, hm⟩
    have hr : rowOf i = row := eq_of_mnemonic_eq _ (rowOf_mem_opcodeRows i) _ hrow hm
    exact hr ▸ matches_rowOf_of_decode hi

/-- A word is one command, so the rows it matches have one mnemonic. -/
theorem eq_of_matches {row row2 : OpcodeRow} {w : CmdWord} (hrow : row ∈ opcodeRows)
    (hrow2 : row2 ∈ opcodeRows) (h : Matches row w) (h2 : Matches row2 w) : row = row2 := by
  obtain ⟨i, hi, hm⟩ := exists_decode_of_matches hrow h
  obtain ⟨j, hj, hm2⟩ := exists_decode_of_matches hrow2 h2
  obtain rfl : i = j := Except.ok.inj (hi.symm.trans hj)
  exact eq_of_mnemonic_eq _ hrow _ hrow2 (hm.symm.trans hm2)

theorem reserved_iff_decode_error (w : CmdWord) : Reserved w ↔ ∃ reason, decode w = .error reason where
  mp h := by
    cases hd : decode w with
    | error reason => exact ⟨reason, rfl⟩
    | ok i => exact absurd (matches_rowOf_of_decode hd) (h _ (rowOf_mem_opcodeRows i))
  mpr := by
    rintro ⟨reason, hd⟩ row hrow hm
    obtain ⟨i, hi, -⟩ := exists_decode_of_matches hrow hm
    rw [hd] at hi
    cases hi

/-- Settles O3: a row's mask and the decoder test the same fields (`matches_iff_decode`), a word is one
command (`eq_of_matches`), and every command has a row (`reserved_iff_decode_error`). -/
theorem opcodeTableDecides : Obligations.OpcodeTableDecides := by
  unfold Obligations.OpcodeTableDecides
  exact fun w => ⟨fun _ hrow => ⟨matches_iff_decode hrow w, fun _ hrow2 => eq_of_matches hrow hrow2⟩,
    reserved_iff_decode_error w⟩

end Sys2Proof
end

section
/-! What every command can do to the response and to `MSTATE`, and what the arms of `MSG.STEP` attempt
(spec/44_msg_framing.md R114, R120 to R124).
A `PWM.*` command is illegal or replaces a timer; a `MSG.STEP` is illegal, takes the `DATA` arm, or makes
one attempt that may move `MSTATE` to the next state of the chain. The statements follow from these
two inversions. -/

namespace Sys2Proof.Machine

open Sys2Proof.Claims

/-! ### The outcomes of a command and of the outside's events -/

/-- What a `PWM.*` command can do. -/
theorem exec_pwm_next {i : Instr} {s s' : State} (hp : isPwm i = true) (h : exec i s = .next s') :
    illegal s = .next s' ∨ ∃ t tm', TimerReplaced t tm' s s' := by
  cases i with
  | pwmInit t ch => exact (execPwmInit_next h).imp_right fun ⟨_, _, hr⟩ => ⟨t, _, hr⟩
  | pwmHint8 t ch f cpu =>
    exact (execPwmHint8_next h).imp_right fun ⟨_, tm', _, _, _, hr⟩ => ⟨t, tm', hr⟩
  | pwmHint9 t ch f cpu =>
    exact (execPwmHint9_next h).imp_right fun ⟨_, tm', _, _, _, _, hr⟩ => ⟨t, tm', hr⟩
  | pwmHint10 t ch f cpu =>
    exact (execPwmHint10_next h).imp_right fun ⟨_, tm', _, _, _, _, hr⟩ => ⟨t, tm', hr⟩
  | pwmExact t ch f cpu =>
    exact (execPwmExact_next h).imp_right fun ⟨_, tm', _, _, _, _, hr⟩ => ⟨t, tm', hr⟩
  | pwmDuty t ch v => exact (execPwmDuty_next h).imp_right fun ⟨_, _, _, hr⟩ => ⟨t, _, hr⟩
  | pwmClose t ch => exact (execPwmClose_next h).imp_right fun ⟨_, _, _, hr⟩ => ⟨t, _, hr⟩
  | msgInit ptr len => cases hp
  | msgStep => cases hp

/-- A command gives one response. -/
theorem responds_inj {s' : State} {done done' : Bool} (h : Responds s' done)
    (h' : Responds s' done') : done = done' := by
  simpa using h.symm.trans h'

theorem not_done_of_responds_false {s' : State} (h : Responds s' false) : ¬ Responds s' true :=
  fun hd => Bool.false_ne_true (responds_inj h hd)

theorem respond_responds {done : Bool} {s s' : State} (h : respond done s = .next s') :
    Responds s' done := by
  rw [respond_next h]
  rfl

theorem illegal_msg {s s' : State} (h : illegal s = .next s') : s'.msg = s.msg := by
  rw [illegal_next h]

theorem illegal_not_done {s s' : State} (h : illegal s = .next s') : ¬ Responds s' true := by
  simp [illegal_next h, Responds]

theorem exec_pwm_msg {i : Instr} {s s' : State} (hp : isPwm i = true) (h : exec i s = .next s') :
    s'.msg = s.msg := by
  obtain hi | ⟨t, tm', n, rfl⟩ := exec_pwm_next hp h
  · exact illegal_msg hi
  · rfl

theorem exec_pwm_not_done {i : Instr} {s s' : State} (hp : isPwm i = true)
    (h : exec i s = .next s') : ¬ Responds s' true := by
  obtain hi | ⟨t, tm', n, rfl⟩ := exec_pwm_next hp h
  · exact illegal_not_done hi
  · exact not_done_of_responds_false rfl

/-- `MSG.INIT` starts a frame and answers `{0, 0}` (44 R117). -/
theorem execMsgInit_header {ptr len : BitVec 16} {s s' : State}
    (h : execMsgInit ptr len s = .next s') : s'.msg.mstate = .header ∧ Responds s' false := by
  rw [respond_next h]
  exact ⟨rfl, rfl⟩

/-- What a `MSG.STEP` can do: it is illegal, takes the `DATA` arm, or makes an attempt that may move
`MSTATE` one state on, and only from `END` with `done = 1`. -/
theorem execMsgStep_next {s s' : State} (h : execMsgStep s = .next s') :
    illegal s = .next s' ∨
    (s.msg.mstate = .data ∧ respond false (completePayload (attemptPayload s)) = .next s') ∨
    ∃ b m done, attemptMove b m done s = .next s' ∧ (done = true → s.msg.mstate = .endMark) ∧
      1 ≤ s.msg.mstate.code.toNat ∧ m.code.toNat = s.msg.mstate.code.toNat + 1 := by
  cases hm : s.msg.mstate with
  | idle => exact .inl (execMsgStep_idle (.inl hm) ▸ h)
  | header => exact .inr (.inr ⟨_, _, _, execMsgStep_header hm ▸ h, by decide⟩)
  | data => exact .inr (.inl ⟨rfl, execMsgStep_data hm ▸ h⟩)
  | ckh => exact .inr (.inr ⟨_, _, _, execMsgStep_ckh hm ▸ h, by decide⟩)
  | ckl => exact .inr (.inr ⟨_, _, _, execMsgStep_ckl hm ▸ h, by decide⟩)
  | endMark => exact .inr (.inr ⟨_, _, _, execMsgStep_endMark hm ▸ h, by decide⟩)
  | sent => exact .inl (execMsgStep_idle (.inr hm) ▸ h)

/-- A host write changes no message register (20 R53). -/
theorem hostWrite_msg {addr : Addr} {b : Byte} {s s' : State} (h : hostWrite addr b s = .next s') :
    s'.msg = s.msg := by
  obtain rfl := Host.Outcome.next.inj h
  rfl

/-- The reset input resets the message context (70 R146). -/
theorem resetInput_msg {s s' : State} (h : resetInput s = .next s') : s'.msg = MsgContext.reset := by
  obtain rfl := Host.Outcome.next.inj h
  rfl

/-! ### One attempt -/

theorem attemptMove_accepted {b : Byte} {m : MState} {done : Bool} {s : State}
    (ha : s.nextAnswer = true) :
    attemptMove b m done s = respond done ((s.tryWrite b).setMState m) := by
  simp [attemptMove, ha]

theorem attemptMove_rejected {b : Byte} {m : MState} {done : Bool} {s : State}
    (ha : s.nextAnswer = false) : attemptMove b m done s = respond false (s.tryWrite b) := by
  simp [attemptMove, ha]

/-- A `MSG.STEP` that is one attempt does what the rules say of an attempting arm. -/
theorem armAttempts_of_attemptMove {s : State} {b : Byte} {m : MState} {done : Bool}
    (h : execMsgStep s = attemptMove b m done s) : ArmAttempts s b m done := by
  cases ha : s.nextAnswer with
  | true =>
    rw [attemptMove_accepted ha] at h
    exact ⟨_, h, ⟨rfl, fun _ => rfl, rfl, rfl⟩, ⟨rfl, rfl, rfl⟩, fun _ => ⟨rfl, rfl⟩,
      fun hr => absurd (ha.symm.trans hr) Bool.noConfusion⟩
  | false =>
    rw [attemptMove_rejected ha] at h
    exact ⟨_, h, ⟨rfl, fun _ => rfl, rfl, rfl⟩, ⟨rfl, rfl, rfl⟩,
      fun hr => absurd (ha.symm.trans hr) Bool.noConfusion, fun _ => ⟨rfl, rfl⟩⟩

/-! ### The `HEADER` arm -/

theorem armAttempts_header {s : State} (hm : s.msg.mstate = .header) :
    ArmAttempts s 0x3A .data false :=
  armAttempts_of_attemptMove (execMsgStep_header hm)

/-- A rejected attempt of an arm leaves every message register (44 R127). -/
theorem armAttempts_rejected_msg {s s' : State} {b : Byte} {m : MState} {done : Bool}
    (harm : ArmAttempts s b m done) (h : exec .msgStep s = .next s') (ha : s.nextAnswer = false) :
    s'.msg = s.msg := by
  obtain ⟨s1, h1, -, -, -, hrejected⟩ := harm
  obtain rfl : s1 = s' := Host.Outcome.next.inj (h1.symm.trans h)
  exact (hrejected ha).1

/-- Settles O41: `HEADER` is an attempting arm, and as its rejection keeps `MSTATE` the next `MSG.STEP` is
in `HEADER` again. -/
theorem headerArm : Obligations.HeaderArm := by
  unfold Obligations.HeaderArm
  intro s hm
  refine ⟨armAttempts_header hm, fun s' h ha => armAttempts_header ?_⟩
  rw [armAttempts_rejected_msg (armAttempts_header hm) h ha, hm]

/-! ### The checksum arms -/

/-- The claims' hex digit is the model's (44 R119). -/
theorem hexDigit_eq_digit (v : BitVec 4) : hexDigit v = digit v.toNat := rfl

theorem highDigit_eq_digit (mck : Byte) : highDigit mck = digit (mck.toNat / 16) := by
  have hv : (mck.extractLsb' 4 4).toNat = mck.toNat / 16 := by
    rw [BitVec.extractLsb'_toNat, Nat.shiftRight_eq_div_pow]
    omega
  rw [highDigit, hexDigit_eq_digit, hv]

theorem lowDigit_eq_digit (mck : Byte) : lowDigit mck = digit (mck.toNat % 16) := by
  have hv : (mck.extractLsb' 0 4).toNat = mck.toNat % 16 := by
    rw [BitVec.extractLsb'_toNat, Nat.shiftRight_zero]
  rw [lowDigit, hexDigit_eq_digit, hv]

/-- Settles O43: both are attempting arms, and their bytes are the digits of the two nibbles. -/
theorem checksumArms : Obligations.ChecksumArms := by
  unfold Obligations.ChecksumArms
  intro s
  rw [← highDigit_eq_digit, ← lowDigit_eq_digit]
  exact ⟨fun hm => armAttempts_of_attemptMove (execMsgStep_ckh hm),
    fun hm => armAttempts_of_attemptMove (execMsgStep_ckl hm)⟩

/-! ### The `END` arm -/

/-- A `MSG.STEP` answers `done = 1` only from `END`, on acceptance. -/
theorem endMark_accepted_of_done {s s' : State} (h : execMsgStep s = .next s')
    (hd : Responds s' true) : s.msg.mstate = .endMark ∧ s.nextAnswer = true := by
  obtain hi | ⟨-, hdata⟩ | ⟨b, m, done, hattempt, hend, -⟩ := execMsgStep_next h
  · exact absurd hd (illegal_not_done hi)
  · exact absurd hd (not_done_of_responds_false (respond_responds hdata))
  · cases ha : s.nextAnswer with
    | true =>
      rw [attemptMove_accepted ha] at hattempt
      exact ⟨hend (responds_inj (respond_responds hattempt) hd), rfl⟩
    | false =>
      rw [attemptMove_rejected ha] at hattempt
      exact absurd hd (not_done_of_responds_false (respond_responds hattempt))

/-- Settles O44: `END` is an attempting arm, and of all commands only a `MSG.STEP` whose attempt is
accepted there answers `done = 1` (`endMark_accepted_of_done`, `exec_pwm_not_done`). -/
theorem endArm : Obligations.EndArm := by
  unfold Obligations.EndArm
  refine ⟨fun s hm => armAttempts_of_attemptMove (execMsgStep_endMark hm), fun i s s' h hd => ?_⟩
  cases i with
  | msgStep => exact ⟨rfl, endMark_accepted_of_done h hd⟩
  | msgInit ptr len =>
    exact absurd hd (not_done_of_responds_false (execMsgInit_header h).2)
  | _ => exact absurd hd (exec_pwm_not_done rfl h)

/-! ### The chain of states -/

/-- The `DATA` arm leaves `MSTATE` or completes the payload (44 R121). -/
theorem dataArm_mstate (s : State) :
    (completePayload (attemptPayload s)).msg.mstate = s.msg.mstate ∨
      (completePayload (attemptPayload s)).msg.mstate = .ckh := by
  obtain ⟨-, -, he⟩ | ⟨-, -, he⟩ | ⟨-, he⟩ := dataArm_cases s <;> rw [he]
  · exact (ite_eq_or_eq _ _ _).symm
  · exact .inl rfl
  · exact .inr rfl

/-- A `MSG.STEP` leaves `MSTATE` or moves it to the next state of the chain. -/
theorem execMsgStep_mstate {s s' : State} (h : execMsgStep s = .next s') :
    s'.msg.mstate = s.msg.mstate ∨
      (1 ≤ s.msg.mstate.code.toNat ∧
        s'.msg.mstate.code.toNat = s.msg.mstate.code.toNat + 1) := by
  obtain hi | ⟨hm, hdata⟩ | ⟨b, m, done, hattempt, -, hlow, hnext⟩ := execMsgStep_next h
  · exact .inl (by rw [illegal_msg hi])
  · rw [respond_next hdata]
    obtain hkept | hckh := dataArm_mstate s
    · exact .inl hkept
    · exact .inr (by rw [hckh, hm]; decide)
  · obtain ⟨-, rfl⟩ | ⟨-, rfl⟩ := attemptMove_next hattempt
    · exact .inr ⟨hlow, hnext⟩
    · exact .inl rfl

/-- What a command can do to `MSTATE`. -/
theorem exec_mstate {i : Instr} {s s' : State} (h : exec i s = .next s') :
    s'.msg.mstate = s.msg.mstate ∨
    (i = .msgStep ∧ 1 ≤ s.msg.mstate.code.toNat ∧
      s'.msg.mstate.code.toNat = s.msg.mstate.code.toNat + 1) ∨
    (isMsgInit i = true ∧ s'.msg.mstate = .header) := by
  cases i with
  | msgStep => exact (execMsgStep_mstate h).imp_right fun hmove => .inl ⟨rfl, hmove⟩
  | msgInit ptr len => exact .inr (.inr ⟨rfl, (execMsgInit_header h).1⟩)
  | _ => exact .inl (by rw [exec_pwm_msg rfl h])

/-- Settles O46: of the events a step can take, only a command and reset change `MSTATE`
(`step_next`), and `exec_mstate` says how a command does. -/
theorem stateChainOrder : Obligations.StateChainOrder := by
  unfold Obligations.StateChainOrder
  refine ⟨by decide, fun s s' h => ?_⟩
  obtain ⟨-, rfl⟩ | ⟨w, rest, i, hin, hdec, hexec⟩ | ⟨w, rest, reason, -, -, hi⟩ |
    ⟨addr, b, rest, -, hw⟩ | ⟨rest, hin, hr⟩ := step_next h
  · exact .inl rfl
  · obtain hkept | ⟨rfl, hmove⟩ | ⟨hinit, hheader⟩ := exec_mstate hexec
    · exact .inl hkept
    · exact .inr (.inl ⟨w, rest, hin, hdec, hmove⟩)
    · exact .inr (.inr (.inl ⟨w, rest, i, hin, hdec, hinit, hheader⟩))
  · exact .inl (by rw [illegal_msg hi, State.takeInput_msg])
  · exact .inl (by rw [hostWrite_msg hw, State.takeInput_msg])
  · exact .inr (.inr (.inr ⟨rest, hin, by rw [resetInput_msg hr]; rfl⟩))

end Sys2Proof.Machine
end

section
/-! The decoder and the encoder undo each other (spec/30_encoding.md R55 to R59, R64).
What a decoded word's command is, is said once by its fields: the `op` byte and the must-be-zero fields
(`op_mustBeZero_of_decode`) and the operands (`operandFields_of_decode`). The statements about decoded
words follow from these two. -/

namespace Sys2Proof

open Sys2Proof.Machine Sys2Proof.Claims
open Sys2Proof.Laws.EncodedRow (opByte)

/-! ### Fields of an encoded word -/

@[simp] theorem fieldRsv_cmdWord_selOf (op : BitVec 8) (t : Nat) (ch : Channel) (a b : BitVec 32) :
    fieldRsv (cmdWord op (selOf t ch) a b) = 0 := by
  rw [fieldRsv_eq_sel, fieldSel_cmdWord, selOf_rsv]

@[simp] theorem fieldT_cmdWord_selOf (op : BitVec 8) (t : Nat) (ch : Channel) (a b : BitVec 32) :
    fieldT (cmdWord op (selOf t ch) a b) = BitVec.ofNat 3 t := by
  rw [fieldT_eq_sel, fieldSel_cmdWord, selOf_t]

@[simp] theorem fieldCh_cmdWord_selOf (op : BitVec 8) (t : Nat) (ch : Channel) (a b : BitVec 32) :
    fieldCh (cmdWord op (selOf t ch) a b) = channelBit ch := by
  rw [fieldCh_eq_sel, fieldSel_cmdWord, selOf_ch]

/-! The two halves of a 32-bit operand put together from them. -/

theorem upperHalf_append (x y : BitVec 16) : (x ++ y : BitVec 32).extractLsb' 16 16 = x :=
  BitVec.extractLsb'_append_eq_left

theorem lowerHalf_append (x y : BitVec 16) : (x ++ y : BitVec 32).extractLsb' 0 16 = y :=
  BitVec.extractLsb'_append_eq_right

theorem toNat_zero_append (x : BitVec 16) : ((0 : BitVec 16) ++ x : BitVec 32).toNat = x.toNat :=
  (BitVec.toNat_append 0#16 x).trans (by simp)

theorem timer_lt_of_wellFormed {t : Nat} (h : Instr.timerFits t = true) : t % 8 = t :=
  Nat.mod_eq_of_lt (of_decide_eq_true h)

/-- Settles O1: every field of the encoded word is the operand it was made of. -/
theorem decodeOfEncode : Obligations.DecodeOfEncode := by
  unfold Obligations.DecodeOfEncode
  intro i hwf
  cases i with
  | msgInit ptr len =>
    simp [encode, decode, whenZero, fieldAHi_eq, fieldBHi_eq, fieldPtr_eq, fieldLen_eq,
      upperHalf_append, lowerHalf_append]
  | msgStep => simp [encode, decode, whenZero]
  | _ => simp [encode, decode, whenZero, timer_lt_of_wellFormed hwf]

/-! ### Operands of a decoded word -/

/-- The operands of a command are the word's fields (30 R57). -/
def OperandFields (w : CmdWord) : Instr → Prop
  | .pwmInit t ch | .pwmClose t ch => t = (fieldT w).toNat ∧ ch = channelOf (fieldCh w)
  | .pwmHint8 t ch f c | .pwmHint9 t ch f c | .pwmHint10 t ch f c | .pwmExact t ch f c =>
      t = (fieldT w).toNat ∧ ch = channelOf (fieldCh w) ∧ f = fieldA w ∧ c = fieldB w
  | .pwmDuty t ch v => t = (fieldT w).toNat ∧ ch = channelOf (fieldCh w) ∧ v = fieldA w
  | .msgInit ptr len => ptr = fieldPtr w ∧ len = fieldLen w
  | .msgStep => True

theorem operandFields_of_decode {w : CmdWord} {i : Instr} (h : decode w = .ok i) :
    OperandFields w i := by
  unfold decode at h
  split at h
  case h_10 => cases h
  all_goals
    obtain ⟨-, rfl⟩ := whenZero_ok h
    simp [OperandFields]

/-- With the reserved bits zero `sel` is made of the timer index and the channel. -/
theorem selOf_fields {w : CmdWord} (h : fieldRsv w = 0) :
    selOf (fieldT w).toNat (channelOf (fieldCh w)) = fieldSel w := by
  rw [selOf, ← h, BitVec.ofNat_toNat, BitVec.setWidth_eq, channelBit_channelOf, fieldRsv_eq_sel,
    fieldT_eq_sel, fieldCh_eq_sel]
  ext i hi
  simp
  grind

/-- An operand with a zero upper half is its lower half. -/
theorem zero_append_fieldPtr {w : CmdWord} (h : fieldAHi w = 0) :
    ((0 : BitVec 16) ++ fieldPtr w : BitVec 32) = fieldA w := by
  rw [← h, fieldAHi_eq, fieldPtr_eq]
  exact BitVec.extractLsb'_append_extractLsb'

theorem zero_append_fieldLen {w : CmdWord} (h : fieldBHi w = 0) :
    ((0 : BitVec 16) ++ fieldLen w : BitVec 32) = fieldB w := by
  rw [← h, fieldBHi_eq, fieldLen_eq]
  exact BitVec.extractLsb'_append_extractLsb'

theorem timerFits_fieldT (w : CmdWord) : Instr.timerFits (fieldT w).toNat = true :=
  decide_eq_true (fieldT w).isLt

/-- Settles O2: the encoder puts the operands back into the fields they were read from, and the fields
that it fills with zeros are the must-be-zero fields. -/
theorem encodeOfDecode : Obligations.EncodeOfDecode := by
  unfold Obligations.EncodeOfDecode
  intro w i h
  obtain ⟨hop, hz⟩ := op_mustBeZero_of_decode h
  have hfields := operandFields_of_decode h
  suffices hw : w = encode i ∧ i.wellFormed = true from ⟨hw.1.symm, hw.2⟩
  cases i with
  | msgInit ptr len =>
    obtain ⟨rfl, rfl⟩ := hfields
    obtain ⟨hsel, ha, hb⟩ := hz
    exact ⟨eq_cmdWord_iff.mpr
      ⟨hop, hsel, (zero_append_fieldPtr ha).symm, (zero_append_fieldLen hb).symm⟩, rfl⟩
  | msgStep => exact ⟨eq_cmdWord_iff.mpr ⟨hop, hz⟩, rfl⟩
  | pwmInit t ch | pwmClose t ch =>
    obtain ⟨rfl, rfl⟩ := hfields
    obtain ⟨hrsv, hab⟩ := hz
    exact ⟨eq_cmdWord_iff.mpr ⟨hop, (selOf_fields hrsv).symm, hab⟩, timerFits_fieldT w⟩
  | pwmDuty t ch v =>
    obtain ⟨rfl, rfl, rfl⟩ := hfields
    obtain ⟨hrsv, hb⟩ := hz
    exact ⟨eq_cmdWord_iff.mpr ⟨hop, (selOf_fields hrsv).symm, rfl, hb⟩, timerFits_fieldT w⟩
  | _ =>
    obtain ⟨rfl, rfl, rfl, rfl⟩ := hfields
    exact ⟨eq_cmdWord_iff.mpr ⟨hop, (selOf_fields hz).symm, rfl, rfl⟩, timerFits_fieldT w⟩

/-! ### Fields as numbers -/

theorem toNat_extractLsb' (w : CmdWord) (lo len : Nat) :
    (w.extractLsb' lo len).toNat = w.toNat / 2 ^ lo % 2 ^ len := by
  rw [BitVec.extractLsb'_toNat, Nat.shiftRight_eq_div_pow]

theorem fieldOp_toNat (w : CmdWord) : (fieldOp w).toNat = w.toNat / 2 ^ 72 := by
  rw [fieldOp, toNat_extractLsb']
  have := w.isLt
  omega

theorem rsvBits_eq (w : CmdWord) : rsvBits w = (fieldRsv w).toNat := (toNat_extractLsb' w 68 4).symm
theorem tBits_eq (w : CmdWord) : tBits w = (fieldT w).toNat := (toNat_extractLsb' w 65 3).symm
theorem chBits_eq (w : CmdWord) : chBits w = (fieldCh w).toNat := (toNat_extractLsb' w 64 1).symm
theorem selBits_eq (w : CmdWord) : selBits w = (fieldSel w).toNat := (toNat_extractLsb' w 64 8).symm
theorem aBits_eq (w : CmdWord) : aBits w = (fieldA w).toNat := (toNat_extractLsb' w 32 32).symm
theorem bBits_eq (w : CmdWord) : bBits w = (fieldB w).toNat := by
  rw [fieldB, toNat_extractLsb', pow_zero, Nat.div_one, bBits]

theorem chNumber_channelOf (c : BitVec 1) : chNumber (channelOf c) = c.toNat := by
  revert c; decide

theorem aBits_of_fieldAHi_zero {w : CmdWord} (h : fieldAHi w = 0) : (fieldPtr w).toNat = aBits w := by
  rw [aBits_eq, ← zero_append_fieldPtr h, toNat_zero_append]

theorem bBits_of_fieldBHi_zero {w : CmdWord} (h : fieldBHi w = 0) : (fieldLen w).toNat = bBits w := by
  rw [bBits_eq, ← zero_append_fieldLen h, toNat_zero_append]

theorem pairFrom_fields {w : CmdWord} (h : fieldRsv w = 0) :
    PairFrom w (fieldT w).toNat (channelOf (fieldCh w)) := by
  refine ⟨?_, (tBits_eq w).symm, ?_⟩
  · rw [rsvBits_eq, h]; rfl
  · rw [chBits_eq, chNumber_channelOf]

theorem operandsFrom_of_decode {w : CmdWord} {i : Instr} (h : decode w = .ok i) :
    OperandsFrom w i := by
  obtain ⟨-, hz⟩ := op_mustBeZero_of_decode h
  have hfields := operandFields_of_decode h
  cases i with
  | msgInit ptr len =>
    obtain ⟨rfl, rfl⟩ := hfields
    obtain ⟨hsel, ha, hb⟩ := hz
    exact ⟨by rw [selBits_eq, hsel]; rfl, aBits_of_fieldAHi_zero ha, bBits_of_fieldBHi_zero hb⟩
  | msgStep =>
    obtain ⟨hsel, ha, hb⟩ := hz
    simp [OperandsFrom, selBits_eq, aBits_eq, bBits_eq, hsel, ha, hb]
  | pwmInit t ch | pwmClose t ch =>
    obtain ⟨rfl, rfl⟩ := hfields
    obtain ⟨hrsv, ha, hb⟩ := hz
    simp [OperandsFrom, pairFrom_fields hrsv, aBits_eq, bBits_eq, ha, hb]
  | pwmDuty t ch v =>
    obtain ⟨rfl, rfl, rfl⟩ := hfields
    obtain ⟨hrsv, hb⟩ := hz
    simp [OperandsFrom, pairFrom_fields hrsv, aBits_eq, bBits_eq, hb]
  | _ =>
    obtain ⟨rfl, rfl, rfl, rfl⟩ := hfields
    exact ⟨pairFrom_fields hz, (aBits_eq w).symm, (bBits_eq w).symm⟩

/-- The claims' compare-register width is the model's (00 R6). -/
theorem compareBits_eq (kind : TimerKind) : compareBits kind = compareWidth kind := by
  cases kind <;> rfl

/-- Values that agree in the low `CW` bits are one value to a compare register. -/
theorem writeCompare_congr {tm : Timer} {ch : Channel} {v v' : Nat}
    (h : v % 2 ^ compareWidth tm.kind = v' % 2 ^ compareWidth tm.kind) :
    tm.writeCompare ch v = tm.writeCompare ch v' := by
  simp only [Timer.writeCompare, truncCompare, h]

/-- Settles O4: the operands and must-be-zero fields as numbers (`operandsFrom_of_decode`); a duty value
is used through `writeCompare` alone. -/
theorem operandsAreTheFields : Obligations.OperandsAreTheFields := by
  unfold Obligations.OperandsAreTheFields
  refine ⟨fun w i => operandsFrom_of_decode, fun s t ch v v2 hv => ?_⟩
  cases ht : s.timer t with
  | none => simp [exec, execPwmDuty, onBound, onTimer, ht]
  | some tm =>
    have hsame := writeCompare_congr (ch := ch) (by simpa [compareBits_eq] using hv tm ht)
    simp [exec, execPwmDuty, onBound, onTimer, ht, hsame]

/-- Settles O5: the nine words, each decoded. -/
theorem workedEncodings : Obligations.WorkedEncodings := by
  unfold Obligations.WorkedEncodings
  decide

/-! ### Reserved words -/

/-- A word of a row has the row's `op` byte (30 R58). -/
theorem op_of_matches {row : OpcodeRow} {w : CmdWord} (hrow : row ∈ opcodeRows)
    (h : Matches row w) : w.toNat / 2 ^ 72 = row.pattern.toNat / 2 ^ 72 := by
  obtain ⟨i, rfl⟩ := exists_rowOf_of_mem hrow
  rw [← fieldOp_toNat, ← fieldOp_toNat, (matches_rowOf.mp h).1, rowOf, fieldOp_cmdWord]

/-- Two rows with the same `op` byte are the same row. -/
theorem eq_of_op_eq : ∀ row ∈ opcodeRows, ∀ row2 ∈ opcodeRows,
    row.pattern.toNat / 2 ^ 72 = row2.pattern.toNat / 2 ^ 72 → row = row2 := by
  decide

theorem op_mem_of_row : ∀ row ∈ opcodeRows,
    row.pattern.toNat / 2 ^ 72 ∈ [0x01, 0x02, 0x03, 0x04, 0x05, 0x06, 0x07, 0x10, 0x11] := by
  decide

theorem reserved_of_op_not_mem {w : CmdWord}
    (h : w.toNat / 2 ^ 72 ∉ [0x01, 0x02, 0x03, 0x04, 0x05, 0x06, 0x07, 0x10, 0x11]) : Reserved w :=
  fun row hrow hm => h (op_of_matches hrow hm ▸ op_mem_of_row row hrow)

theorem reserved_of_mismatch {row : OpcodeRow} {w : CmdWord} (hrow : row ∈ opcodeRows)
    (hop : w.toNat / 2 ^ 72 = row.pattern.toNat / 2 ^ 72) (h : ¬ Matches row w) : Reserved w := by
  intro row2 hrow2 hm
  obtain rfl := eq_of_op_eq row hrow row2 hrow2 (hop.symm.trans (op_of_matches hrow2 hm))
  exact h hm

theorem exists_decode_of_not_reserved {w : CmdWord} (h : ¬ Reserved w) : ∃ i, decode w = .ok i := by
  cases hd : decode w with
  | ok i => exact ⟨i, rfl⟩
  | error reason => exact absurd ((reserved_iff_decode_error w).mpr ⟨reason, hd⟩) h

theorem not_reserved_of_decode {w : CmdWord} {i : Instr} (h : decode w = .ok i) : ¬ Reserved w :=
  fun hr => hr _ (rowOf_mem_opcodeRows i) (matches_rowOf_of_decode h)

/-- A step on a reserved word is `illegal()`, whatever the reason (30 R64). -/
theorem step_reserved {s : State} {w : CmdWord} {rest : List HostEvent}
    (hin : s.inputs = .command w :: rest) (h : Reserved w) :
    step s = .next (illegalState { s with inputs := rest }) := by
  obtain ⟨reason, hd⟩ := (reserved_iff_decode_error w).mp h
  cases reason <;> simp only [step, hin, hd] <;> rfl

/-- Settles O6: a word matches a row only with the row's `op` byte (`op_of_matches`), the rows have
different ones (`eq_of_op_eq`), and a reserved word is one that the decoder rejects. -/
theorem reservedWordsAreIllegal : Obligations.ReservedWordsAreIllegal := by
  unfold Obligations.ReservedWordsAreIllegal
  exact ⟨fun _ _ _ => step_reserved, reserved_of_op_not_mem (by decide),
    fun _ => reserved_of_op_not_mem, fun _ hrow _ => reserved_of_mismatch hrow,
    fun _ => exists_decode_of_not_reserved⟩

end Sys2Proof
end

section
/-! What every command does, once (spec/30_encoding.md R63, spec/40 to 44).
A command is `illegal()` in the cases I2 to I6 (`exec_illegal`). A legal `PWM.*` command replaces its
timer by `pwmWrite` (`exec_pwm_legal`). A `MSG.STEP` with a byte to attempt attempts it, and the context
advances when the byte is accepted (`exec_msgStep_cases`). -/

namespace Sys2Proof.Machine

open Sys2Proof.Claims

/-! ### The claims' words are the model's -/

@[simp] theorem regs_eq_chan (tm : Timer) (ch : Channel) : regs tm ch = tm.chan ch := by
  cases ch <;> rfl

theorem boundAt_iff {s : State} {t : Nat} {ch : Channel} {tm : Timer} :
    BoundAt s t ch tm ↔ s.timer t = some tm ∧ (tm.chan ch).bound = true := by
  rw [BoundAt, regs_eq_chan]; rfl

theorem not_unusable_iff {s : State} {t : Nat} {ch : Channel} :
    ¬ Unusable s t ch ↔ ∃ tm, BoundAt s t ch tm := by
  cases ht : s.timers[t]? with
  | none => simp_all [Unusable, BoundAt]
  | some tm =>
    have hlt := (List.getElem?_eq_some_iff.mp ht).1
    simp [Unusable, BoundAt, hlt]

/-! ### What a legal `PWM.*` command leaves in its timer -/

/-- What a hint command of width `w` leaves (40 R78, R83). -/
def hintWrite (w : CounterWidth) (f cpu : BitVec 32) (draw : Nat) (tm : Timer) : Timer :=
  if f = 0 then tm.drawClockAndWave draw
  else
    programHint tm (select (divisor cpu f w) (divisorTable tm.kind)).1
      (select (divisor cpu f w) (divisorTable tm.kind)).2 w

/-- What `PWM.EXACT` leaves (41 R90, R96). -/
def exactWrite (f cpu : BitVec 32) (draw : Nat) (tm : Timer) : Timer :=
  if f = 0 then (tm.drawClockAndWave draw).drawTop draw
  else programExact tm (exactChoice cpu f (divisorTable tm.kind))

/-- What a legal command leaves in the timer it names, at draw number `draw`. -/
def pwmWrite : Instr → Nat → Timer → Timer
  | .pwmInit _ ch, _, tm => tm.initChannel ch
  | .pwmHint8 _ _ f cpu, draw, tm => hintWrite .w8 f cpu draw tm
  | .pwmHint9 _ _ f cpu, draw, tm => hintWrite .w9 f cpu draw tm
  | .pwmHint10 _ _ f cpu, draw, tm => hintWrite .w10 f cpu draw tm
  | .pwmExact _ _ f cpu, draw, tm => exactWrite f cpu draw tm
  | .pwmDuty _ ch v, _, tm => tm.writeCompare ch v.toNat
  | .pwmClose _ ch, _, tm => tm.closeChannel ch
  | .msgInit _ _, _, tm => tm
  | .msgStep, _, tm => tm

/-- How many draws a frequency command makes: one for a zero frequency (40 R83, 41 R96). -/
def frequencyDraws (f : BitVec 32) : Nat := if f = 0 then 1 else 0

/-- How many draws a command makes. -/
def pwmDrawn : Instr → Nat
  | .pwmHint8 _ _ f _ | .pwmHint9 _ _ f _ | .pwmHint10 _ _ f _ | .pwmExact _ _ f _ => frequencyDraws f
  | _ => 0

/-- The state after a legal `PWM.*` command on timer `t`, which was `tm`. -/
def pwmNext (i : Instr) (t : Nat) (tm : Timer) (s : State) : State :=
  { s with
    timers := s.timers.set t (pwmWrite i s.pwmDraws tm)
    pwmDraws := s.pwmDraws + pwmDrawn i
    response := some { illegal := false, done := false } }

theorem pwmNext_timer {i : Instr} {t : Nat} {tm : Timer} {s : State} (ht : s.timers[t]? = some tm) :
    (pwmNext i t tm s).timers[t]? = some (pwmWrite i s.pwmDraws tm) := by
  have hlt := (List.getElem?_eq_some_iff.mp ht).1
  simp [pwmNext, hlt]

theorem pwmNext_frame (i : Instr) (t : Nat) (tm : Timer) (s : State) :
    PwmFrame t s (pwmNext i t tm s) := by
  refine ⟨fun u hu => ?_, List.length_set, rfl, fun _ => rfl, rfl, rfl, rfl, rfl⟩
  exact List.getElem?_set_ne hu.symm

theorem pwmNext_responds (i : Instr) (t : Nat) (tm : Timer) (s : State) :
    Responds (pwmNext i t tm s) false := rfl

/-! ### The legal `PWM.*` commands -/

theorem exec_init {s : State} {t : Nat} {tm : Timer} (ch : Channel) (ht : s.timers[t]? = some tm) :
    exec (.pwmInit t ch) s = .next (pwmNext (.pwmInit t ch) t tm s) := by
  have ht : s.timer t = some tm := ht
  simp only [exec, execPwmInit, onTimer, ht]
  rfl

section Bound

variable {s : State} {t : Nat} {ch : Channel} {tm : Timer}

theorem exec_duty (v : BitVec 32) (hb : BoundAt s t ch tm) :
    exec (.pwmDuty t ch v) s = .next (pwmNext (.pwmDuty t ch v) t tm s) := by
  obtain ⟨ht, hbound⟩ := boundAt_iff.mp hb
  exact onBound_eq ht hbound

theorem exec_close (hb : BoundAt s t ch tm) :
    exec (.pwmClose t ch) s = .next (pwmNext (.pwmClose t ch) t tm s) := by
  obtain ⟨ht, hbound⟩ := boundAt_iff.mp hb
  exact onBound_eq ht hbound

/-- The effect of a hint command is one replacement of its timer, drawn or selected. -/
theorem hintEffect_eq (w : CounterWidth) (ch : Channel) (f cpu : BitVec 32) :
    hintEffect w t f cpu s tm = .next (pwmNext (hintCommand w t ch f cpu) t tm s) := by
  have hsplit : hintEffect w t f cpu s tm = .next { s with
      timers := s.timers.set t (hintWrite w f cpu s.pwmDraws tm)
      pwmDraws := s.pwmDraws + frequencyDraws f
      response := some { illegal := false, done := false } } := by
    by_cases hf : f = 0 <;> simp only [hintEffect, hintWrite, frequencyDraws, hf, if_true, if_false] <;>
      rfl
  cases w <;> exact hsplit

theorem exec_hint {w : CounterWidth} (f cpu : BitVec 32) (hb : BoundAt s t ch tm)
    (hw : WidthFits w tm) :
    exec (hintCommand w t ch f cpu) s = .next (pwmNext (hintCommand w t ch f cpu) t tm s) := by
  obtain ⟨ht, hbound⟩ := boundAt_iff.mp hb
  rw [← hintEffect_eq]
  cases w with
  | w8 => exact onBound_eq ht hbound
  | w9 => exact onBound16_eq ht hbound (hw (by decide))
  | w10 => exact onBound16_eq ht hbound (hw (by decide))

theorem exec_exact (f cpu : BitVec 32) (hb : BoundAt s t ch tm) (hk : tm.kind ≠ .t16) :
    exec (.pwmExact t ch f cpu) s = .next (pwmNext (.pwmExact t ch f cpu) t tm s) := by
  obtain ⟨ht, hbound⟩ := boundAt_iff.mp hb
  refine (onBound8_eq ht hbound hk).trans ?_
  by_cases hf : f = 0 <;>
    simp only [exactEffect, pwmNext, pwmWrite, pwmDrawn, frequencyDraws, exactWrite, hf, if_true,
      if_false] <;> rfl

end Bound

/-! ### Illegal commands -/

section Unusable

variable {s : State} {t : Nat} {ch : Channel} {k : Timer → Result}

theorem onTimer_absent (h : s.timers.length ≤ t) : onTimer t s k = illegal s := by
  simp [onTimer, (State.timer_eq_none s t).mpr h]

theorem onBound_unusable (h : Unusable s t ch) : onBound t ch s k = illegal s := by
  obtain habsent | ⟨tm, ht, hb⟩ := h
  · exact onTimer_absent habsent
  · have ht : s.timer t = some tm := ht
    rw [regs_eq_chan] at hb
    simp [onBound, onTimer, ht, hb]

theorem onBound16_wrongKind
    (h : Unusable s t ch ∨ ∃ tm, s.timers[t]? = some tm ∧ tm.kind ≠ .t16) :
    onBound16 t ch s k = illegal s := by
  obtain h | ⟨tm, ht, hk⟩ := h
  · exact onBound_unusable h
  · have ht : s.timer t = some tm := ht
    simp [onBound16, onBound, onTimer, ht, hk]

theorem onBound8_wrongKind
    (h : Unusable s t ch ∨ ∃ tm, s.timers[t]? = some tm ∧ tm.kind = .t16) :
    onBound8 t ch s k = illegal s := by
  obtain h | ⟨tm, ht, hk⟩ := h
  · exact onBound_unusable h
  · have ht : s.timer t = some tm := ht
    simp [onBound8, onBound, onTimer, ht, hk]

end Unusable

/-- In the cases I2 to I6 a command changes the response alone (30 R63). -/
theorem exec_illegal {i : Instr} {s : State} (h : IllegalCommand s i) :
    exec i s = .next (illegalState s) := by
  suffices hi : exec i s = illegal s from hi
  cases i with
  | pwmInit t ch => exact onTimer_absent h
  | pwmHint8 t ch f cpu => exact onBound_unusable h
  | pwmHint9 t ch f cpu => exact onBound16_wrongKind h
  | pwmHint10 t ch f cpu => exact onBound16_wrongKind h
  | pwmExact t ch f cpu => exact onBound8_wrongKind h
  | pwmDuty t ch v => exact onBound_unusable h
  | pwmClose t ch => exact onBound_unusable h
  | msgInit ptr len => cases h
  | msgStep => exact execMsgStep_idle h

/-! ### Legal `PWM.*` commands -/

/-- A bound pair of a 16-bit timer is what I2, I3 and I4 leave legal. -/
theorem exists_bound16 {s : State} {t : Nat} {ch : Channel}
    (h : ¬ (Unusable s t ch ∨ ∃ tm, s.timers[t]? = some tm ∧ tm.kind ≠ .t16)) :
    ∃ tm, BoundAt s t ch tm ∧ tm.kind = .t16 := by
  obtain ⟨hu, hk⟩ := not_or.mp h
  obtain ⟨tm, hb⟩ := not_unusable_iff.mp hu
  exact ⟨tm, hb, by_contra fun hne => hk ⟨tm, hb.1, hne⟩⟩

/-- A bound pair of an 8-bit timer is what I2, I3 and I5 leave legal. -/
theorem exists_bound8 {s : State} {t : Nat} {ch : Channel}
    (h : ¬ (Unusable s t ch ∨ ∃ tm, s.timers[t]? = some tm ∧ tm.kind = .t16)) :
    ∃ tm, BoundAt s t ch tm ∧ tm.kind ≠ .t16 := by
  obtain ⟨hu, hk⟩ := not_or.mp h
  obtain ⟨tm, hb⟩ := not_unusable_iff.mp hu
  exact ⟨tm, hb, fun heq => hk ⟨tm, hb.1, heq⟩⟩

/-- Every `PWM.*` command that is not illegal replaces the timer it names. -/
theorem exec_pwm_legal {i : Instr} {s : State} {t : Nat} {ch : Channel} (hp : pairOf i = some (t, ch))
    (h : ¬ IllegalCommand s i) :
    ∃ tm, s.timers[t]? = some tm ∧ exec i s = .next (pwmNext i t tm s) := by
  cases i <;> cases hp
  case pwmInit =>
    have hlt : t < s.timers.length := not_le.mp h
    exact ⟨_, List.getElem?_eq_getElem hlt, exec_init ch (List.getElem?_eq_getElem hlt)⟩
  case pwmHint8 f cpu =>
    obtain ⟨tm, hb⟩ := not_unusable_iff.mp h
    exact ⟨tm, hb.1, exec_hint (w := .w8) f cpu hb fun hne => absurd rfl hne⟩
  case pwmHint9 f cpu =>
    obtain ⟨tm, hb, hk⟩ := exists_bound16 h
    exact ⟨tm, hb.1, exec_hint (w := .w9) f cpu hb fun _ => hk⟩
  case pwmHint10 f cpu =>
    obtain ⟨tm, hb, hk⟩ := exists_bound16 h
    exact ⟨tm, hb.1, exec_hint (w := .w10) f cpu hb fun _ => hk⟩
  case pwmExact f cpu =>
    obtain ⟨tm, hb, hk⟩ := exists_bound8 h
    exact ⟨tm, hb.1, exec_exact f cpu hb hk⟩
  case pwmDuty v =>
    obtain ⟨tm, hb⟩ := not_unusable_iff.mp h
    exact ⟨tm, hb.1, exec_duty v hb⟩
  case pwmClose =>
    obtain ⟨tm, hb⟩ := not_unusable_iff.mp h
    exact ⟨tm, hb.1, exec_close hb⟩

theorem exists_pair_of_isPwm {i : Instr} (h : isPwm i = true) : ∃ t ch, pairOf i = some (t, ch) := by
  cases i with
  | msgInit ptr len | msgStep => cases h
  | _ => exact ⟨_, _, rfl⟩

/-- What a `PWM.*` command can do. -/
theorem exec_pwm_cases {i : Instr} {s s' : State} {t : Nat} {ch : Channel}
    (hp : pairOf i = some (t, ch)) (h : exec i s = .next s') :
    (IllegalCommand s i ∧ s' = illegalState s) ∨
      (¬ IllegalCommand s i ∧ ∃ tm, s.timers[t]? = some tm ∧ s' = pwmNext i t tm s) := by
  by_cases hi : IllegalCommand s i
  · exact .inl ⟨hi, (Host.Outcome.next.inj ((exec_illegal hi).symm.trans h)).symm⟩
  · obtain ⟨tm, ht, he⟩ := exec_pwm_legal hp hi
    exact .inr ⟨hi, tm, ht, (Host.Outcome.next.inj (he.symm.trans h)).symm⟩

/-! ### `MSG.STEP` -/

/-- The byte that a `MSG.STEP` attempts, if it attempts one (44 R120 to R124). -/
def nextByte (s : State) : Option Byte :=
  match s.msg.mstate with
  | .idle | .sent => none
  | .header => some 0x3A
  | .data =>
    if s.msg.mcur.toNat < s.msg.mlen.toNat then
      some (s.mem.read (payloadAddr s.msg.mptr s.msg.mcur.toNat))
    else none
  | .ckh => some (highDigit s.msg.mck)
  | .ckl => some (lowDigit s.msg.mck)
  | .endMark => some 0x0A

/-- In `DATA` there is a byte to attempt only while the cursor is inside the payload. -/
theorem cursor_lt_of_nextByte {s : State} {b : Byte} (h : nextByte s = some b)
    (hm : s.msg.mstate = .data) : s.msg.mcur.toNat < s.msg.mlen.toNat := by
  by_contra hc
  simp [nextByte, hm, hc] at h

/-- The message context once the byte attempted is accepted (44 R120 to R124). -/
def MsgContext.advance (m : MsgContext) : MsgContext :=
  match m.mstate with
  | .idle | .sent => m
  | .header => { m with mstate := .data }
  | .data =>
    { m with
      mcur := m.mcur + 1
      mstate := if m.mlen.toNat ≤ (m.mcur + 1).toNat then .ckh else .data }
  | .ckh => { m with mstate := .ckl }
  | .ckl => { m with mstate := .endMark }
  | .endMark => { m with mstate := .sent }

/-- The state after a `MSG.STEP` that attempts `b`. -/
def State.afterAttempt (s : State) (b : Byte) : State :=
  { s.tryWrite b with
    msg := if s.nextAnswer then s.msg.advance else s.msg
    response := some { illegal := false, done := s.nextAnswer && decide (s.msg.mstate = .endMark) } }

/-- The state after a `MSG.STEP` in `DATA` with no byte left: the empty payload (44 R121). -/
def State.afterEmptyPayload (s : State) : State :=
  { s with
    msg := { s.msg with mstate := .ckh }
    response := some { illegal := false, done := false } }

/-- An attempt that moves `MSTATE` as the context advances. -/
theorem attemptMove_eq {b : Byte} {m : MState} {done : Bool} {s : State}
    (hadv : s.msg.advance = { s.msg with mstate := m })
    (hdone : decide (s.msg.mstate = .endMark) = done) :
    attemptMove b m done s = .next (s.afterAttempt b) := by
  rw [State.afterAttempt, hadv, hdone]
  cases ha : s.nextAnswer <;> simp [attemptMove, ha, respond, State.setMState]

theorem dataArm_attempt {s : State} (hm : s.msg.mstate = .data)
    (hc : s.msg.mcur.toNat < s.msg.mlen.toNat) :
    respond false (completePayload (attemptPayload s)) =
      .next (s.afterAttempt (s.mem.read (payloadAddr s.msg.mptr s.msg.mcur.toNat))) := by
  obtain ⟨-, ha, he⟩ | ⟨-, ha, he⟩ | ⟨hge, -⟩ := dataArm_cases s
  · simp [he, respond, State.afterAttempt, ha, MsgContext.advance, hm]
  · simp [he, respond, State.afterAttempt, ha]
  · omega

/-- A `MSG.STEP` attempts the byte that is next. -/
theorem exec_msgStep_attempt {s : State} {b : Byte} (h : nextByte s = some b) :
    exec .msgStep s = .next (s.afterAttempt b) := by
  cases hm : s.msg.mstate with
  | idle | sent => simp [nextByte, hm] at h
  | data =>
    have hc := cursor_lt_of_nextByte h hm
    simp only [nextByte, hm, hc, if_true, Option.some.injEq] at h
    exact h ▸ (execMsgStep_data hm).trans (dataArm_attempt hm hc)
  | header | ckh | ckl | endMark =>
    simp only [nextByte, hm, Option.some.injEq] at h
    simp only [exec, execMsgStep, hm, h]
    exact attemptMove_eq (by simp [MsgContext.advance, hm]) (by simp [hm])

theorem exec_msgStep_emptyPayload {s : State} (hm : s.msg.mstate = .data)
    (hc : s.msg.mlen.toNat ≤ s.msg.mcur.toNat) :
    exec .msgStep s = .next s.afterEmptyPayload := by
  obtain ⟨hlt, -⟩ | ⟨hlt, -⟩ | ⟨-, he⟩ := dataArm_cases s
  · omega
  · omega
  · exact (execMsgStep_data hm).trans (by rw [he]; rfl)

/-- There is a byte to attempt, but with no frame in progress and with the empty payload in `DATA`. -/
theorem nextByte_cases (s : State) :
    IllegalCommand s .msgStep ∨ (∃ b, nextByte s = some b) ∨
      (s.msg.mstate = .data ∧ s.msg.mlen.toNat ≤ s.msg.mcur.toNat) := by
  cases hm : s.msg.mstate with
  | idle => exact .inl (.inl hm)
  | sent => exact .inl (.inr hm)
  | data =>
    by_cases hc : s.msg.mcur.toNat < s.msg.mlen.toNat
    · exact .inr (.inl ⟨_, by simp only [nextByte, hm, hc, if_true]; rfl⟩)
    · exact .inr (.inr ⟨rfl, not_lt.mp hc⟩)
  | header | ckh | ckl | endMark => exact .inr (.inl ⟨_, by simp only [nextByte, hm]; rfl⟩)

/-- Everything a `MSG.STEP` can do (44 R118). -/
theorem exec_msgStep_cases (s : State) :
    (IllegalCommand s .msgStep ∧ exec .msgStep s = .next (illegalState s)) ∨
    (∃ b, nextByte s = some b ∧ exec .msgStep s = .next (s.afterAttempt b)) ∨
    (s.msg.mstate = .data ∧ s.msg.mlen.toNat ≤ s.msg.mcur.toNat ∧
      exec .msgStep s = .next s.afterEmptyPayload) := by
  obtain hi | ⟨b, hb⟩ | ⟨hm, hc⟩ := nextByte_cases s
  · exact .inl ⟨hi, exec_illegal hi⟩
  · exact .inr (.inl ⟨b, hb, exec_msgStep_attempt hb⟩)
  · exact .inr (.inr ⟨hm, hc, exec_msgStep_emptyPayload hm hc⟩)

end Sys2Proof.Machine
end

section
/-! The registers of a timer after each writer (spec/10_state.md R15 to R22): which fields a legal
`PWM.*` command leaves, and what it puts into the others. -/

namespace Sys2Proof.Machine

open Sys2Proof.Claims

/-! ### Writers of one register -/

theorem Timer.chan_setChan (tm : Timer) (ch c : Channel) (x : Chan) :
    (tm.setChan ch x).chan c = if c = ch then x else tm.chan c := by
  by_cases h : c = ch
  · rw [if_pos h, h, Timer.chan_setChan_same]
  · rw [if_neg h, Timer.chan_setChan_other tm ch c x h]

theorem Timer.chan_writeCompare (tm : Timer) (ch c : Channel) (v : Nat) :
    (tm.writeCompare ch v).chan c =
      if c = ch then { tm.chan ch with ocr := truncCompare tm.kind v } else tm.chan c :=
  tm.chan_setChan ch c _

theorem Timer.wgm_writeWave (tm : Timer) (m : WaveMode) :
    (tm.writeWave m).wgm = (wavePattern tm.kind m).getD tm.wgm := by
  cases h : wavePattern tm.kind m <;> simp [Timer.writeWave, h]

theorem wavePattern_normal (kind : TimerKind) : wavePattern kind .normal = some 0 := by
  cases kind <;> rfl

@[simp] theorem Timer.drawClockAndWave_kind (tm : Timer) (n : Nat) :
    (tm.drawClockAndWave n).kind = tm.kind := rfl
@[simp] theorem Timer.drawClockAndWave_chan (tm : Timer) (n : Nat) (c : Channel) :
    (tm.drawClockAndWave n).chan c = tm.chan c := by
  cases c <;> rfl

/-! ### `PWM.INIT` and `PWM.CLOSE` -/

@[simp] theorem Timer.initChannel_kind (tm : Timer) (ch : Channel) :
    (tm.initChannel ch).kind = tm.kind := by simp [Timer.initChannel]
@[simp] theorem Timer.initChannel_cs (tm : Timer) (ch : Channel) :
    (tm.initChannel ch).cs = tm.cs := by simp [Timer.initChannel]
@[simp] theorem Timer.initChannel_wgm (tm : Timer) (ch : Channel) :
    (tm.initChannel ch).wgm = tm.wgm := by simp [Timer.initChannel]

theorem Timer.chan_initChannel (tm : Timer) (ch c : Channel) :
    (tm.initChannel ch).chan c =
      if c = ch then { com := 0b10, ocr := (tm.chan ch).ocr, ddr := true, bound := true }
      else tm.chan c := by
  cases ch <;> cases c <;> rfl

@[simp] theorem Timer.closeChannel_kind (tm : Timer) (ch : Channel) :
    (tm.closeChannel ch).kind = tm.kind := by simp [Timer.closeChannel]
@[simp] theorem Timer.closeChannel_cs (tm : Timer) (ch : Channel) :
    (tm.closeChannel ch).cs = 0 := rfl
@[simp] theorem Timer.closeChannel_wgm (tm : Timer) (ch : Channel) :
    (tm.closeChannel ch).wgm = 0 := by
  simp [Timer.closeChannel, Timer.wgm_writeWave, wavePattern_normal]

theorem Timer.chan_closeChannel (tm : Timer) (ch c : Channel) :
    (tm.closeChannel ch).chan c = if c = ch then { tm.chan ch with com := 0b00 } else tm.chan c := by
  simp only [Timer.closeChannel, Timer.writeCs_chan, Timer.writeWave_chan]
  exact tm.chan_setChan ch c _

/-! ### The frequency commands -/

/-! The registers that a frequency command writes, from its operands and the timer's kind (41 R93, R96,
40 R78, R83); `none` would keep a register. -/

def hintCs (w : CounterWidth) (f cpu : BitVec 32) (draw : Nat) (kind : TimerKind) : Option (BitVec 3) :=
  some (if f = 0 then Config.freeClockSelect draw
    else BitVec.ofNat 3 ((select (divisor cpu f w) (divisorTable kind)).2 + 1))

def hintWgm (w : CounterWidth) (f cpu : BitVec 32) (draw : Nat) (kind : TimerKind) : Option (BitVec 4) :=
  if f = 0 then some (Config.freeWaveform draw)
  else wavePattern kind (.free (select (divisor cpu f w) (divisorTable kind)).1 w)

def exactCs (f cpu : BitVec 32) (draw : Nat) (kind : TimerKind) : Option (BitVec 3) :=
  some (if f = 0 then Config.freeClockSelect draw
    else BitVec.ofNat 3 (exactChoice cpu f (divisorTable kind)).cs)

def exactWgm (f cpu : BitVec 32) (draw : Nat) (kind : TimerKind) : Option (BitVec 4) :=
  if f = 0 then some (Config.freeWaveform draw)
  else wavePattern kind (.ocra (exactChoice cpu f (divisorTable kind)).mode)

/-- The top that `PWM.EXACT` writes to `OCR[t][A]`. -/
def exactOcr (f cpu : BitVec 32) (draw : Nat) (kind : TimerKind) : BitVec 16 :=
  truncCompare kind
    (if f = 0 then (Config.freeTop draw).toNat else (exactChoice cpu f (divisorTable kind)).top)

section Frequency

variable (w : CounterWidth) (f cpu : BitVec 32) (draw : Nat) (tm : Timer) (c : Channel)

@[simp] theorem hintWrite_kind : (hintWrite w f cpu draw tm).kind = tm.kind := by
  unfold hintWrite; split <;> simp [programHint]

@[simp] theorem hintWrite_chan : (hintWrite w f cpu draw tm).chan c = tm.chan c := by
  unfold hintWrite; split <;> simp [programHint]

theorem hintWrite_cs : (hintWrite w f cpu draw tm).cs = (hintCs w f cpu draw tm.kind).getD tm.cs := by
  unfold hintWrite hintCs; split <;> simp [programHint, Timer.drawClockAndWave]

theorem hintWrite_wgm :
    (hintWrite w f cpu draw tm).wgm = (hintWgm w f cpu draw tm.kind).getD tm.wgm := by
  unfold hintWrite hintWgm
  split <;> simp [programHint, Timer.drawClockAndWave, Timer.wgm_writeWave]

@[simp] theorem exactWrite_kind : (exactWrite f cpu draw tm).kind = tm.kind := by
  unfold exactWrite; split <;> simp [programExact, Timer.drawTop]

/-- `PWM.EXACT` writes the compare register of channel A and no other register of a channel. -/
theorem exactWrite_chan : (exactWrite f cpu draw tm).chan c =
    if c = .A then { tm.chan .A with ocr := exactOcr f cpu draw tm.kind } else tm.chan c := by
  unfold exactWrite exactOcr
  split <;> simp [Timer.chan_writeCompare, programExact, Timer.drawTop]

theorem exactWrite_cs : (exactWrite f cpu draw tm).cs = (exactCs f cpu draw tm.kind).getD tm.cs := by
  unfold exactWrite exactCs; split <;> simp [programExact, Timer.drawClockAndWave, Timer.drawTop]

theorem exactWrite_wgm :
    (exactWrite f cpu draw tm).wgm = (exactWgm f cpu draw tm.kind).getD tm.wgm := by
  unfold exactWrite exactWgm
  split <;> simp [programExact, Timer.drawClockAndWave, Timer.drawTop, Timer.wgm_writeWave]

end Frequency

/-! ### The value a command writes to each register, if it writes it -/

/-- The value written to `CS`, from the operands, the draw and the timer's kind. -/
def csWritten (i : Instr) (draw : Nat) (kind : TimerKind) : Option (BitVec 3) :=
  match i with
  | .pwmHint8 _ _ f cpu => hintCs .w8 f cpu draw kind
  | .pwmHint9 _ _ f cpu => hintCs .w9 f cpu draw kind
  | .pwmHint10 _ _ f cpu => hintCs .w10 f cpu draw kind
  | .pwmExact _ _ f cpu => exactCs f cpu draw kind
  | .pwmClose _ _ => some 0
  | _ => none

/-- The value written to `WGM`. -/
def wgmWritten (i : Instr) (draw : Nat) (kind : TimerKind) : Option (BitVec 4) :=
  match i with
  | .pwmHint8 _ _ f cpu => hintWgm .w8 f cpu draw kind
  | .pwmHint9 _ _ f cpu => hintWgm .w9 f cpu draw kind
  | .pwmHint10 _ _ f cpu => hintWgm .w10 f cpu draw kind
  | .pwmExact _ _ f cpu => exactWgm f cpu draw kind
  | .pwmClose _ _ => wavePattern kind .normal
  | _ => none

/-- The value written to `COM` of channel `c`. -/
def comWritten (i : Instr) (c : Channel) : Option (BitVec 2) :=
  match i with
  | .pwmInit _ ch => if c = ch then some 0b10 else none
  | .pwmClose _ ch => if c = ch then some 0b00 else none
  | _ => none

/-- The value written to `OCR` of channel `c`. -/
def ocrWritten (i : Instr) (draw : Nat) (kind : TimerKind) (c : Channel) : Option (BitVec 16) :=
  match i with
  | .pwmDuty _ ch v => if c = ch then some (truncCompare kind v.toNat) else none
  | .pwmExact _ _ f cpu => if c = .A then some (exactOcr f cpu draw kind) else none
  | _ => none

/-- The value written to `DDR` and to `BOUND` of channel `c`. -/
def bindingWritten (i : Instr) (c : Channel) : Option Bool :=
  match i with
  | .pwmInit _ ch => if c = ch then some true else none
  | _ => none

section Registers

variable (i : Instr) (draw : Nat) (tm : Timer) (c : Channel)

@[simp] theorem pwmWrite_kind : (pwmWrite i draw tm).kind = tm.kind := by
  cases i <;> simp [pwmWrite]

theorem pwmWrite_cs : (pwmWrite i draw tm).cs = (csWritten i draw tm.kind).getD tm.cs := by
  cases i <;> simp [pwmWrite, csWritten, hintWrite_cs, exactWrite_cs]

theorem pwmWrite_wgm : (pwmWrite i draw tm).wgm = (wgmWritten i draw tm.kind).getD tm.wgm := by
  cases i <;> simp [pwmWrite, wgmWritten, hintWrite_wgm, exactWrite_wgm, wavePattern_normal]

/-- Every register of a channel keeps its value or takes the one written. -/
theorem pwmWrite_chan : (pwmWrite i draw tm).chan c =
    { com := (comWritten i c).getD (tm.chan c).com
      ocr := (ocrWritten i draw tm.kind c).getD (tm.chan c).ocr
      ddr := (bindingWritten i c).getD (tm.chan c).ddr
      bound := (bindingWritten i c).getD (tm.chan c).bound } := by
  cases i with
  | pwmInit t ch =>
    by_cases hc : c = ch <;>
      simp [pwmWrite, comWritten, ocrWritten, bindingWritten, Timer.chan_initChannel, hc]
  | pwmClose t ch =>
    by_cases hc : c = ch <;>
      simp [pwmWrite, comWritten, ocrWritten, bindingWritten, Timer.chan_closeChannel, hc]
  | pwmDuty t ch v =>
    by_cases hc : c = ch <;>
      simp [pwmWrite, comWritten, ocrWritten, bindingWritten, Timer.chan_writeCompare, hc]
  | pwmExact t ch f cpu =>
    by_cases hc : c = .A <;>
      simp [pwmWrite, comWritten, ocrWritten, bindingWritten, exactWrite_chan, hc]
  | _ => simp [pwmWrite, comWritten, ocrWritten, bindingWritten]

end Registers

end Sys2Proof.Machine
end

section
/-! The whole-machine rules (spec/10_state.md R14, R21, R31, spec/44_msg_framing.md R129,
spec/60_exceptions.md R140): which part of the state a command can change, and what its result depends
on. -/

namespace Sys2Proof.Machine

open Sys2Proof.Claims

/-! ### What a command leaves unchanged -/

theorem exec_pwm_frame {i : Instr} {s s' : State} {t : Nat} {ch : Channel}
    (hp : pairOf i = some (t, ch)) (h : exec i s = .next s') : PwmFrame t s s' := by
  obtain ⟨-, rfl⟩ | ⟨-, tm, -, rfl⟩ := exec_pwm_cases hp h
  · exact ⟨fun _ _ => rfl, rfl, rfl, fun _ => rfl, rfl, rfl, rfl, rfl⟩
  · exact pwmNext_frame i t tm s

/-- A message command leaves the timers, the draws of register values and the inputs. -/
theorem exec_msg_frame {i : Instr} {s s' : State} (hp : isPwm i = false) (h : exec i s = .next s') :
    s'.timers = s.timers ∧ s'.pwmDraws = s.pwmDraws ∧ s'.inputs = s.inputs := by
  cases i with
  | msgInit ptr len =>
    obtain rfl := respond_next h
    exact ⟨rfl, rfl, rfl⟩
  | msgStep =>
    obtain ⟨htimers, -, hinputs, hdraws, -⟩ := execMsgStep_keeps h
    exact ⟨htimers, hdraws, hinputs⟩
  | _ => cases hp



theorem exec_inputs {i : Instr} {s s' : State} (h : exec i s = .next s') : s'.inputs = s.inputs := by
  cases hp : isPwm i with
  | false =>
    obtain ⟨-, -, hinputs⟩ := exec_msg_frame hp h
    exact hinputs
  | true =>
    obtain ⟨t, ch, hpair⟩ := exists_pair_of_isPwm hp
    obtain ⟨-, -, -, -, hinputs, -⟩ := exec_pwm_frame hpair h
    exact hinputs

theorem exec_timers_length {i : Instr} {s s' : State} (h : exec i s = .next s') :
    s'.timers.length = s.timers.length := by
  cases hp : isPwm i with
  | false => rw [(exec_msg_frame hp h).1]
  | true =>
    obtain ⟨t, ch, hpair⟩ := exists_pair_of_isPwm hp
    obtain ⟨-, hlength, -⟩ := exec_pwm_frame hpair h
    exact hlength

/-- Settles O33: a `PWM.*` command replaces the timer it names alone (`exec_pwm_frame`), a message
command none. -/
theorem commandsTouchOneTimer : Obligations.CommandsTouchOneTimer := by
  unfold Obligations.CommandsTouchOneTimer
  intro i s s' h
  refine ⟨exec_timers_length h, fun u hu => ?_⟩
  cases hp : isPwm i with
  | false => rw [(exec_msg_frame hp h).1]
  | true =>
    obtain ⟨t, ch, hpair⟩ := exists_pair_of_isPwm hp
    exact (exec_pwm_frame hpair h).1 u fun hut => hu ch (hut ▸ hpair)

/-- Settles O34: the frames of the two kinds of command, and that no command writes memory
(`exec_next_mem`). -/
theorem unitsShareNoState : Obligations.UnitsShareNoState := by
  unfold Obligations.UnitsShareNoState
  intro i s s' h
  refine ⟨exec_next_mem h, exec_inputs h, fun hp => ?_, fun hp => ?_⟩
  · obtain ⟨t, ch, hpair⟩ := exists_pair_of_isPwm hp
    obtain ⟨-, -, hmsg, -, -, hanswers, hattempts, hdraws⟩ := exec_pwm_frame hpair h
    exact ⟨hmsg, hattempts, hanswers, hdraws⟩
  · obtain ⟨htimers, hdraws, -⟩ := exec_msg_frame hp h
    exact ⟨htimers, hdraws⟩

/-! ### What legality depends on -/

theorem sameWiring_iff {tm tm2 : Timer} :
    SameWiring tm tm2 ↔
      tm.kind = tm2.kind ∧ ∀ ch, (tm.chan ch).bound = (tm2.chan ch).bound where
  mp := fun ⟨hk, hA, hB⟩ => ⟨hk, fun ch => by cases ch; exacts [hA, hB]⟩
  mpr := fun ⟨hk, hb⟩ => ⟨hk, hb .A, hb .B⟩

/-- Whether a `PWM.*` command is illegal depends on the wiring of the timer it names alone. -/
theorem illegalCommand_congr {i : Instr} {s s2 : State} {t : Nat} {ch : Channel}
    (hp : pairOf i = some (t, ch)) (h : Option.Rel SameWiring s.timers[t]? s2.timers[t]?) :
    IllegalCommand s i ↔ IllegalCommand s2 i := by
  generalize ho : s.timers[t]? = o at h
  generalize ho2 : s2.timers[t]? = o2 at h
  cases h with
  | none =>
    have hge := List.getElem?_eq_none_iff.mp ho
    have hge2 := List.getElem?_eq_none_iff.mp ho2
    cases i <;> cases hp <;> simp [IllegalCommand, Unusable, hge, hge2]
  | some hw =>
    have hlt := not_le.mpr (List.getElem?_eq_some_iff.mp ho).1
    have hlt2 := not_le.mpr (List.getElem?_eq_some_iff.mp ho2).1
    have hb := (sameWiring_iff.mp hw).2 ch
    cases i <;> cases hp <;>
      simp only [IllegalCommand, Unusable, ho, ho2, hlt, hlt2, regs_eq_chan, Option.some.injEq,
        exists_eq_left', false_or, hb, hw.1]

theorem optionRel_sameWiring_refl (o : Option Timer) : Option.Rel SameWiring o o := by
  cases o with
  | none => exact .none
  | some tm => exact .some ⟨rfl, rfl, rfl⟩

/-! ### What a result depends on -/

theorem exec_pwm_timers_congr {i : Instr} {s1 s2 s1' s2' : State} (hp : isPwm i = true)
    (ht : s1.timers = s2.timers) (hd : s1.pwmDraws = s2.pwmDraws)
    (h1 : exec i s1 = .next s1') (h2 : exec i s2 = .next s2') :
    s1'.timers = s2'.timers ∧ s1'.pwmDraws = s2'.pwmDraws ∧ s1'.response = s2'.response := by
  obtain ⟨t, ch, hpair⟩ := exists_pair_of_isPwm hp
  have hlegal : IllegalCommand s1 i ↔ IllegalCommand s2 i :=
    illegalCommand_congr hpair (ht ▸ optionRel_sameWiring_refl _)
  obtain ⟨hi, rfl⟩ | ⟨hi, tm, htm, rfl⟩ := exec_pwm_cases hpair h1 <;>
    obtain ⟨hi2, rfl⟩ | ⟨hi2, tm2, htm2, rfl⟩ := exec_pwm_cases hpair h2
  · exact ⟨ht, hd, rfl⟩
  · exact absurd (hlegal.mp hi) hi2
  · exact absurd (hlegal.mpr hi2) hi
  · obtain rfl : tm = tm2 := Option.some.inj (htm.symm.trans (ht ▸ htm2))
    simp [pwmNext, ht, hd]

/-- What the message unit and its transport hold agrees in two states. -/
def SameMessageSide (s1 s2 : State) : Prop :=
  s1.msg = s2.msg ∧ s1.answers = s2.answers ∧ s1.attempts = s2.attempts ∧
    s1.acceptDraws = s2.acceptDraws

theorem nextByte_congr {s1 s2 : State} (hmsg : s1.msg = s2.msg) (hmem : s1.mem = s2.mem) :
    nextByte s1 = nextByte s2 := by
  simp only [nextByte, hmsg, hmem]

/-- Two runs of `MSG.STEP` on the same context, memory and transport agree. -/
theorem exec_msgStep_congr {s1 s2 s1' s2' : State} (hside : SameMessageSide s1 s2)
    (hmem : s1.mem = s2.mem) (h1 : exec .msgStep s1 = .next s1') (h2 : exec .msgStep s2 = .next s2') :
    SameMessageSide s1' s2' ∧ s1'.response = s2'.response := by
  obtain ⟨hmsg, hanswers, hattempts, hdraws⟩ := hside
  have hnext : s1.nextAnswer = s2.nextAnswer := State.nextAnswer_congr s2 s1 hanswers hdraws
  obtain ⟨hi, he⟩ | ⟨b, hb, he⟩ | ⟨hm, hc, he⟩ := exec_msgStep_cases s1
  · have he2 := exec_illegal (i := .msgStep) (s := s2) (by rwa [IllegalCommand, ← hmsg])
    obtain rfl := Host.Outcome.next.inj (h1.symm.trans he)
    obtain rfl := Host.Outcome.next.inj (h2.symm.trans he2)
    exact ⟨⟨hmsg, hanswers, hattempts, hdraws⟩, rfl⟩
  · have he2 := exec_msgStep_attempt (nextByte_congr hmsg hmem ▸ hb)
    obtain rfl := Host.Outcome.next.inj (h1.symm.trans he)
    obtain rfl := Host.Outcome.next.inj (h2.symm.trans he2)
    simp [SameMessageSide, State.afterAttempt, hmsg, hanswers, hattempts, hdraws, hnext]
  · have he2 := exec_msgStep_emptyPayload (hmsg ▸ hm) (hmsg ▸ hc)
    obtain rfl := Host.Outcome.next.inj (h1.symm.trans he)
    obtain rfl := Host.Outcome.next.inj (h2.symm.trans he2)
    simp [SameMessageSide, State.afterEmptyPayload, hmsg, hanswers, hattempts, hdraws]

theorem exec_msg_congr {i : Instr} {s1 s2 s1' s2' : State} (hp : isPwm i = false)
    (hside : SameMessageSide s1 s2) (hmem : s1.mem = s2.mem)
    (h1 : exec i s1 = .next s1') (h2 : exec i s2 = .next s2') :
    SameMessageSide s1' s2' ∧ s1'.response = s2'.response := by
  cases i with
  | msgInit ptr len =>
    obtain ⟨-, hrest⟩ := hside
    obtain rfl := respond_next h1
    obtain rfl := respond_next h2
    exact ⟨⟨by rw [hmem], hrest⟩, rfl⟩
  | msgStep => exact exec_msgStep_congr hside hmem h1 h2
  | _ => cases hp

/-- Settles O35: legality and the writer of a `PWM.*` command read the timers and the draw counter
(`exec_pwm_timers_congr`), the message commands the context, memory and transport (`exec_msg_congr`). -/
theorem unitsDoNotObserveEachOther : Obligations.UnitsDoNotObserveEachOther := by
  unfold Obligations.UnitsDoNotObserveEachOther
  refine ⟨fun i s1 s2 s1' s2' => exec_pwm_timers_congr, ?_⟩
  intro i s1 s2 s1' s2' hp hmsg hmem hanswers hattempts hdraws h1 h2
  obtain ⟨⟨hm, ha, hat, hd⟩, hr⟩ := exec_msg_congr hp ⟨hmsg, hanswers, hattempts, hdraws⟩ hmem h1 h2
  exact ⟨hm, ha, hat, hd, hr⟩

/-! ### Which commands write a register -/

/-- A register that takes the value written, if there is one, changes only when there is one. -/
theorem written_of_ne {α : Type} {o : Option α} {x : α} (h : o.getD x ≠ x) : o.isSome = true := by
  cases o with
  | none => exact absurd rfl h
  | some v => rfl

section Writers

variable {i : Instr} {t : Nat} {ch c : Channel} {draw : Nat} {kind : TimerKind}

theorem writesClock_of_csWritten (hp : pairOf i = some (t, ch))
    (h : (csWritten i draw kind).isSome = true) : writesClock t i := by
  cases i <;> cases hp <;> simp_all [csWritten, writesClock]

theorem writesClock_of_wgmWritten (hp : pairOf i = some (t, ch))
    (h : (wgmWritten i draw kind).isSome = true) : writesClock t i := by
  cases i <;> cases hp <;> simp_all [wgmWritten, writesClock]

theorem writesCom_of_comWritten (hp : pairOf i = some (t, ch))
    (h : (comWritten i c).isSome = true) : writesCom t c i := by
  cases i <;> cases hp <;> simp_all [comWritten, writesCom]

theorem writesOcr_of_ocrWritten (hp : pairOf i = some (t, ch))
    (h : (ocrWritten i draw kind c).isSome = true) : writesOcr t c i := by
  cases i <;> cases hp <;> simp_all [ocrWritten, writesOcr]

theorem writesBinding_of_bindingWritten (hp : pairOf i = some (t, ch))
    (h : (bindingWritten i c).isSome = true) : writesBinding t c i := by
  cases i <;> cases hp <;> simp_all [bindingWritten, writesBinding]

end Writers

/-- What a command can do to a timer: keep it, or, as a legal command that names it, write it. -/
theorem exec_timer_cases {i : Instr} {s s' : State} {t : Nat} {tm tm' : Timer}
    (h : exec i s = .next s') (ht : s.timers[t]? = some tm) (ht' : s'.timers[t]? = some tm') :
    tm' = tm ∨ ∃ ch, pairOf i = some (t, ch) ∧ ¬ IllegalCommand s i ∧
      tm' = pwmWrite i s.pwmDraws tm := by
  by_cases hnamed : ∃ ch, pairOf i = some (t, ch)
  · obtain ⟨ch, hp⟩ := hnamed
    obtain ⟨-, rfl⟩ | ⟨hlegal, tm0, ht0, rfl⟩ := exec_pwm_cases hp h
    · exact .inl (Option.some.inj (ht'.symm.trans ht))
    · obtain rfl : tm0 = tm := Option.some.inj (ht0.symm.trans ht)
      exact .inr ⟨ch, hp, hlegal, Option.some.inj (ht'.symm.trans (pwmNext_timer ht))⟩
  · have hkept := (commandsTouchOneTimer i s s' h).2 t fun ch hp => hnamed ⟨ch, hp⟩
    exact .inl (Option.some.inj (ht'.symm.trans (hkept.trans ht)))

/-- A register that differs was written by a command that writes it. -/
theorem exec_register_writers {i : Instr} {s s' : State} {t : Nat} {tm tm' : Timer}
    (h : exec i s = .next s') (ht : s.timers[t]? = some tm) (ht' : s'.timers[t]? = some tm') :
    tm'.kind = tm.kind ∧ (tm'.cs ≠ tm.cs → writesClock t i) ∧ (tm'.wgm ≠ tm.wgm → writesClock t i) ∧
    ∀ c, ((tm'.chan c).com ≠ (tm.chan c).com → writesCom t c i) ∧
      ((tm'.chan c).ocr ≠ (tm.chan c).ocr → writesOcr t c i) ∧
      ((tm'.chan c).ddr ≠ (tm.chan c).ddr → writesBinding t c i) ∧
      ((tm'.chan c).bound ≠ (tm.chan c).bound → writesBinding t c i) := by
  obtain rfl | ⟨ch, hp, -, rfl⟩ := exec_timer_cases h ht ht'
  · simp
  · rw [pwmWrite_cs, pwmWrite_wgm]
    simp only [pwmWrite_chan]
    exact ⟨pwmWrite_kind .., fun hne => writesClock_of_csWritten hp (written_of_ne hne),
      fun hne => writesClock_of_wgmWritten hp (written_of_ne hne), fun c =>
      ⟨fun hne => writesCom_of_comWritten hp (written_of_ne hne),
        fun hne => writesOcr_of_ocrWritten hp (written_of_ne hne),
        fun hne => writesBinding_of_bindingWritten hp (written_of_ne hne),
        fun hne => writesBinding_of_bindingWritten hp (written_of_ne hne)⟩⟩

/-- The message registers change by a message command, and the frame's own three by `MSG.INIT`. -/
theorem exec_msg_writers {i : Instr} {s s' : State} (h : exec i s = .next s') :
    isMsgInit i = true ∨ s'.msg = s.msg ∨
      (i = .msgStep ∧ s'.msg.mptr = s.msg.mptr ∧ s'.msg.mlen = s.msg.mlen ∧ s'.msg.mck = s.msg.mck) := by
  cases i with
  | msgInit ptr len => exact .inl rfl
  | msgStep =>
    obtain ⟨-, -, -, -, hframe⟩ := execMsgStep_keeps h
    exact .inr (.inr ⟨rfl, hframe⟩)
  | _ => exact .inr (.inl (exec_pwm_msg rfl h))

/-- Settles O36: a register of a timer changes only when the command writes a value to it
(`exec_register_writers`), a message register only by a message command (`exec_msg_writers`). -/
theorem registerWriters : Obligations.RegisterWriters := by
  unfold Obligations.RegisterWriters
  intro i s s' h
  simp only [regs_eq_chan]
  refine ⟨fun t tm tm' => exec_register_writers h, ?_⟩
  obtain hinit | hmsg | ⟨rfl, hptr, hlen, hck⟩ := exec_msg_writers h
  · simp [hinit]
  · simp [hmsg]
  · simp [hptr, hlen, hck]

/-! ### No value written depends on a register -/

theorem keptOrSame_of_written {α : Type} {r : Timer → α} {o : Option α} {tm tm2 tm' tm2' : Timer}
    (h : r tm' = o.getD (r tm)) (h2 : r tm2' = o.getD (r tm2)) : KeptOrSame r tm tm2 tm' tm2' := by
  cases o with
  | none => exact .inl ⟨h, h2⟩
  | some v => exact .inr (h.trans h2.symm)

/-- Settles O37: the value written to a register is a function of the operands, the draw and the kind
(`pwmWrite_cs`, `pwmWrite_wgm`, `pwmWrite_chan`), and legality one of the wiring. -/
theorem writtenValuesFromOperands : Obligations.WrittenValuesFromOperands := by
  unfold Obligations.WrittenValuesFromOperands
  intro i s s2 s' s2' t ch tm tm2 tm' tm2' hp ht ht2 hw hd h h2 ht' ht2'
  have hlegal : IllegalCommand s i ↔ IllegalCommand s2 i :=
    illegalCommand_congr hp (by rw [ht, ht2]; exact .some hw)
  simp only [regs_eq_chan]
  obtain ⟨hi, rfl⟩ | ⟨hi, tm0, ht0, rfl⟩ := exec_pwm_cases hp h <;>
    obtain ⟨hi2, rfl⟩ | ⟨hi2, tm02, ht02, rfl⟩ := exec_pwm_cases hp h2
  · obtain rfl : tm' = tm := Option.some.inj (ht'.symm.trans ht)
    obtain rfl : tm2' = tm2 := Option.some.inj (ht2'.symm.trans ht2)
    simp [KeptOrSame]
  · exact absurd (hlegal.mp hi) hi2
  · exact absurd (hlegal.mpr hi2) hi
  · obtain rfl : tm0 = tm := Option.some.inj (ht0.symm.trans ht)
    obtain rfl : tm02 = tm2 := Option.some.inj (ht02.symm.trans ht2)
    obtain rfl := Option.some.inj (ht'.symm.trans (pwmNext_timer ht))
    obtain rfl := Option.some.inj (ht2'.symm.trans (pwmNext_timer ht2))
    rw [← hd]
    refine ⟨keptOrSame_of_written (pwmWrite_cs ..) (hw.1 ▸ pwmWrite_cs ..),
      keptOrSame_of_written (pwmWrite_wgm ..) (hw.1 ▸ pwmWrite_wgm ..), fun c => ?_⟩
    have hchan := pwmWrite_chan i s.pwmDraws tm0 c
    have hchan2 := pwmWrite_chan i s.pwmDraws tm02 c
    rw [← hw.1] at hchan2
    exact ⟨keptOrSame_of_written (congrArg Chan.com hchan) (congrArg Chan.com hchan2),
      keptOrSame_of_written (congrArg Chan.ocr hchan) (congrArg Chan.ocr hchan2),
      keptOrSame_of_written (congrArg Chan.ddr hchan) (congrArg Chan.ddr hchan2),
      keptOrSame_of_written (congrArg Chan.bound hchan) (congrArg Chan.bound hchan2)⟩

end Sys2Proof.Machine
end

section
/-! The step and the response (spec/20_memory.md R50, R53, spec/30_encoding.md R59, R62, R63,
spec/60_exceptions.md R130, spec/70_reset_and_hazards.md R145, R146). A command word has one of three
outcomes (`step_command_cases`): reserved, illegal, or legal with a response. -/

namespace Sys2Proof.Machine

open Sys2Proof.Claims

/-! ### One event at a time -/

section StepEquations

variable {s : State} {rest : List HostEvent}

theorem step_decoded {w : CmdWord} {i : Instr} (hin : s.inputs = .command w :: rest)
    (hdec : decode w = .ok i) : step s = exec i (s.takeInput rest) := by
  simp only [step, hin, hdec]

theorem step_memWrite {addr : Addr} {b : Byte} (hin : s.inputs = .memWrite addr b :: rest) :
    step s = hostWrite addr b (s.takeInput rest) := by
  simp only [step, hin]

theorem step_reset (hin : s.inputs = .reset :: rest) : step s = resetInput (s.takeInput rest) := by
  simp only [step, hin]

end StepEquations

/-- Settles O7: by the equation of `step` at a command word. -/
theorem stepRunsDecodedCommand : Obligations.StepRunsDecodedCommand := by
  unfold Obligations.StepRunsDecodedCommand
  exact fun s w rest i => step_decoded

/-- Settles O8: only `step` takes from the inputs, one event; no command touches them (`exec_inputs`). -/
theorem stepTakesEventsInOrder : Obligations.StepTakesEventsInOrder := by
  unfold Obligations.StepTakesEventsInOrder
  intro s s' h
  obtain ⟨hin, rfl⟩ | ⟨w, rest, i, hin, -, hexec⟩ | ⟨w, rest, reason, hin, -, hi⟩ |
    ⟨addr, b, rest, hin, hw⟩ | ⟨rest, hin, hr⟩ := step_next h
  · simp [hin]
  · simp [hin, exec_inputs hexec]
  · simp [hin, illegal_next hi]
  · obtain rfl := Host.Outcome.next.inj hw
    simp [hin]
  · obtain rfl := Host.Outcome.next.inj hr
    simp [hin]

/-- Settles O10: by the equation of `step` with no input. -/
theorem blockWaitsForCommand : Obligations.BlockWaitsForCommand := by
  unfold Obligations.BlockWaitsForCommand
  intro s hin
  simp only [step, hin, waitForCommand]

/-! ### Reset and host writes -/

/-- Settles O11: each default kind's reset timer and the reset context, register by register. -/
theorem resetValues : Obligations.ResetValues := by
  unfold Obligations.ResetValues
  refine ⟨fun tm htm ch => ?_, rfl, rfl, rfl, rfl, rfl, rfl⟩
  obtain ⟨kind, -, rfl⟩ := List.mem_map.mp htm
  cases ch <;> exact ⟨rfl, rfl, rfl, rfl, rfl, rfl⟩

/-- Settles O12: each timer becomes the reset timer of its kind, the context the reset context. -/
theorem resetInputResets : Obligations.ResetInputResets := by
  unfold Obligations.ResetInputResets
  intro s rest hin
  refine ⟨_, step_reset hin, fun t tm ht => ?_, List.length_map _, rfl, rfl, rfl, rfl, fun _ => rfl⟩
  refine ⟨Timer.reset tm.kind, by simp [ht], rfl, rfl, rfl, fun ch => ?_⟩
  cases ch <;> exact ⟨rfl, rfl, rfl, rfl⟩

/-- Settles O13: a read after a write (`Memory.read_write`); `hostWrite` replaces memory alone. -/
theorem hostWriteIsSeen : Obligations.HostWriteIsSeen := by
  unfold Obligations.HostWriteIsSeen
  intro s addr b rest hwf hin
  exact ⟨_, step_memWrite hin, fun a => Memory.read_write s.mem addr a b hwf, rfl, rfl, rfl, rfl⟩

/-! ### Legal commands respond -/

/-- A command outside I2 to I6 answers a next state with `illegal = 0`. -/
theorem exec_legal {i : Instr} {s : State} (h : ¬ IllegalCommand s i) :
    ∃ s' done, exec i s = .next s' ∧ Responds s' done := by
  cases hp : isPwm i with
  | true =>
    obtain ⟨t, ch, hpair⟩ := exists_pair_of_isPwm hp
    obtain ⟨tm, -, he⟩ := exec_pwm_legal hpair h
    exact ⟨_, false, he, pwmNext_responds ..⟩
  | false =>
    cases i with
    | msgInit ptr len => exact ⟨_, false, rfl, rfl⟩
    | msgStep =>
      obtain ⟨hi, -⟩ | ⟨b, -, he⟩ | ⟨-, -, he⟩ := exec_msgStep_cases s
      · exact absurd hi h
      · exact ⟨_, _, he, rfl⟩
      · exact ⟨_, _, he, rfl⟩
    | _ => cases hp

/-- The cases I1 to I6 of a command word (30 R63). -/
def IllegalWord (s : State) (w : CmdWord) : Prop :=
  Reserved w ∨ ∃ i, decode w = .ok i ∧ IllegalCommand s i

section CommandWord

variable {s : State} {w : CmdWord} {rest : List HostEvent} (hin : s.inputs = .command w :: rest)

include hin

theorem step_illegalWord (h : IllegalWord s w) :
    step s = .next (illegalState { s with inputs := rest }) := by
  obtain hres | ⟨i, hdec, hi⟩ := h
  · exact step_reserved hin hres
  · have hi : IllegalCommand (s.takeInput rest) i := by cases i <;> exact hi
    exact (step_decoded hin hdec).trans (exec_illegal hi)

/-- A word outside I1 to I6 is a command, and a step on it is that command, which responds. -/
theorem step_legalWord (h : ¬ IllegalWord s w) :
    ∃ i s' done, decode w = .ok i ∧ exec i (s.takeInput rest) = .next s' ∧ step s = .next s' ∧
      Responds s' done := by
  obtain ⟨hres, hlegal⟩ := not_or.mp h
  obtain ⟨i, hdec⟩ := exists_decode_of_not_reserved hres
  have hi : ¬ IllegalCommand (s.takeInput rest) i := fun hill =>
    hlegal ⟨i, hdec, by cases i <;> exact hill⟩
  obtain ⟨s', done, he, hr⟩ := exec_legal hi
  exact ⟨i, s', done, hdec, he, (step_decoded hin hdec).trans he, hr⟩

end CommandWord

/-- Settles O9: a command word has a next state, illegal (`step_illegalWord`) or not (`step_legalWord`),
and so has every other event. -/
theorem everyStepGoesOn : Obligations.EveryStepGoesOn := by
  unfold Obligations.EveryStepGoesOn
  intro s
  match hin : s.inputs with
  | [] => exact ⟨s, blockWaitsForCommand s hin⟩
  | .command w :: rest =>
    by_cases h : IllegalWord s w
    · exact ⟨_, step_illegalWord hin h⟩
    · obtain ⟨-, s', -, -, -, he, -⟩ := step_legalWord hin h
      exact ⟨s', he⟩
  | .memWrite addr b :: rest => exact ⟨_, step_memWrite hin⟩
  | .reset :: rest => exact ⟨_, step_reset hin⟩

/-- Settles O14: `step_illegalWord` and `step_legalWord`. -/
theorem illegalExactlySixCases : Obligations.IllegalExactlySixCases := by
  unfold Obligations.IllegalExactlySixCases
  refine fun s w rest hin => ⟨step_illegalWord hin, fun h => ?_⟩
  obtain ⟨-, s', done, -, -, he, hr⟩ := step_legalWord hin h
  exact ⟨s', done, he, hr⟩

/-! ### The response bits -/

/-- `done = 1` is the answer of exactly a `MSG.STEP` in `END` that is accepted (44 R124). -/
theorem exec_done_iff {i : Instr} {s s' : State} {done : Bool} (h : exec i s = .next s')
    (hr : Responds s' done) :
    done = true ↔ i = .msgStep ∧ s.msg.mstate = .endMark ∧ s.nextAnswer = true where
  mp hd := endArm.2 i s s' h (hd ▸ hr)
  mpr := by
    rintro ⟨rfl, hm, ha⟩
    obtain ⟨s1, h1, -, -, haccepted, -⟩ := endArm.1 s hm
    obtain rfl := Host.Outcome.next.inj (h1.symm.trans h)
    exact responds_inj hr (haccepted ha).2

theorem not_illegalWord_endMark {s : State} {w : CmdWord} (hdec : decode w = .ok .msgStep)
    (hm : s.msg.mstate = .endMark) : ¬ IllegalWord s w := by
  rintro (hres | ⟨i, hi, hill⟩)
  · exact not_reserved_of_decode hdec hres
  · obtain rfl := Except.ok.inj (hdec.symm.trans hi)
    simp [IllegalCommand, hm] at hill

theorem State.eq_of_sides {s1 s2 : State} (htimers : s1.timers = s2.timers)
    (hdraws : s1.pwmDraws = s2.pwmDraws) (hside : SameMessageSide s1 s2) (hmem : s1.mem = s2.mem)
    (hin : s1.inputs = s2.inputs) (hr : s1.response = s2.response) : s1 = s2 := by
  cases s1
  cases s2
  simp_all [SameMessageSide]

/-- No command reads the old response (30 R62): each unit ignores what is not its own (O35), and leaves
the rest as it is (O34). -/
theorem exec_response_irrelevant {i : Instr} {s s1 s2 : State} {old : Option Response}
    (h1 : exec i s = .next s1) (h2 : exec i { s with response := old } = .next s2) : s2 = s1 := by
  obtain ⟨hmem, hin, hmsg, htimers⟩ := unitsShareNoState i s s1 h1
  obtain ⟨hmem2, hin2, hmsg2, htimers2⟩ := unitsShareNoState i _ s2 h2
  have hmems := hmem2.trans hmem.symm
  have hins := hin2.trans hin.symm
  cases hp : isPwm i with
  | true =>
    obtain ⟨ht, hd, hr⟩ :=
      exec_pwm_timers_congr (s1 := { s with response := old }) (s2 := s) hp rfl rfl h2 h1
    obtain ⟨hm, hat, han, had⟩ := hmsg hp
    obtain ⟨hm2, hat2, han2, had2⟩ := hmsg2 hp
    exact State.eq_of_sides ht hd ⟨hm2.trans hm.symm, han2.trans han.symm, hat2.trans hat.symm,
      had2.trans had.symm⟩ hmems hins hr
  | false =>
    obtain ⟨hside, hr⟩ :=
      exec_msg_congr (s1 := { s with response := old }) (s2 := s) hp ⟨rfl, rfl, rfl, rfl⟩ rfl h2 h1
    obtain ⟨ht, hd⟩ := htimers hp
    obtain ⟨ht2, hd2⟩ := htimers2 hp
    exact State.eq_of_sides (ht2.trans ht.symm) (hd2.trans hd.symm) hside hmems hins hr

theorem illegalWord_response {s : State} {w : CmdWord} (old : Option Response) :
    IllegalWord { s with response := old } w ↔ IllegalWord s w := by
  have hi : ∀ i, IllegalCommand { s with response := old } i ↔ IllegalCommand s i := fun i => by
    cases i <;> exact Iff.rfl
  simp only [IllegalWord, hi]

/-- A step on a command word does not read the old response. -/
theorem step_response_irrelevant {s s' : State} {w : CmdWord} {rest : List HostEvent}
    (hin : s.inputs = .command w :: rest) (h : step s = .next s') (old : Option Response) :
    step { s with response := old } = .next s' := by
  have hin' : State.inputs { s with response := old } = .command w :: rest := hin
  by_cases hill : IllegalWord s w
  · rw [step_illegalWord hin hill] at h
    exact (step_illegalWord hin' ((illegalWord_response old).mpr hill)).trans h
  · obtain ⟨i, s1, -, hdec, he, hs, -⟩ := step_legalWord hin hill
    obtain ⟨j, s2, -, hdec2, he2, hs2, -⟩ := step_legalWord hin' (mt (illegalWord_response old).mp hill)
    obtain rfl := Except.ok.inj (hdec.symm.trans hdec2)
    rw [hs2, exec_response_irrelevant he he2, ← hs, h]

/-- Settles O15: an illegal word answers `{1, 0}`, a legal command `{0, done}` with `done` by
`exec_done_iff`, and neither reads the old response. -/
theorem responseBits : Obligations.ResponseBits := by
  unfold Obligations.ResponseBits
  intro s w rest hin
  by_cases h : IllegalWord s w
  · have hs := step_illegalWord hin h
    exact ⟨_, _, hs, rfl,
      iff_of_false Bool.false_ne_true fun ⟨hdec, hm, _⟩ => not_illegalWord_endMark hdec hm h,
      iff_of_true rfl h, fun _ => rfl, step_response_irrelevant hin hs⟩
  · obtain ⟨i, s', done, hdec, he, hs, hr⟩ := step_legalWord hin h
    refine ⟨s', _, hs, hr, (exec_done_iff he hr).trans ?_, iff_of_false Bool.false_ne_true h,
      fun hf => absurd hf Bool.false_ne_true, step_response_irrelevant hin hs⟩
    simp only [hdec, Except.ok.injEq]
    rfl

end Sys2Proof.Machine
end

section
/-! The message unit (spec/44_msg_framing.md R114 to R129).
`nextByte` is the frame's byte at the count of bytes accepted (`frame_at_sentCount`) and an acceptance
raises that count by one (`sentCount_advance`). So the wire is the frame so far, and a frame whose bytes
are all accepted completes. -/

namespace Sys2Proof.Machine

open Sys2Proof.Claims

/-! ### The context advances -/



theorem not_illegal_of_nextByte {s : State} {b : Byte} (h : nextByte s = some b) :
    ¬ IllegalCommand s .msgStep := by
  rintro (hm | hm) <;> simp [nextByte, hm] at h

/-- The cursor does not wrap while it is inside the payload. -/
theorem cursor_succ_toNat {cur len : BitVec 16} (h : cur.toNat < len.toNat) :
    (cur + 1).toNat = cur.toNat + 1 := by
  have := len.isLt
  rw [BitVec.toNat_add, show (1 : BitVec 16).toNat = 1 from rfl]
  omega

/-- The acceptance of the last payload byte completes the payload (44 R121). -/
theorem MsgContext.advance_last {m : MsgContext} (hm : m.mstate = .data)
    (hlt : m.mcur.toNat < m.mlen.toNat) (hl : m.mcur.toNat + 1 = m.mlen.toNat) :
    m.advance = { m with mcur := m.mlen, mstate := .ckh } := by
  have hsucc := cursor_succ_toNat hlt
  have heq : m.mcur + 1 = m.mlen := BitVec.eq_of_toNat_eq (hsucc.trans hl)
  simp only [MsgContext.advance, hm, heq, le_refl, if_true]

/-- The acceptance of an earlier one moves the cursor alone. -/
theorem MsgContext.advance_more {m : MsgContext} (hm : m.mstate = .data)
    (hlt : m.mcur.toNat < m.mlen.toNat) (hl : m.mcur.toNat + 1 ≠ m.mlen.toNat) :
    m.advance = { m with mcur := m.mcur + 1 } := by
  have hsucc := cursor_succ_toNat hlt
  have hmore : ¬ m.mlen.toNat ≤ (m.mcur + 1).toNat := by omega
  simp only [MsgContext.advance, hm, hmore, if_false]

/-- With no byte left in `DATA` the payload is empty (44 R121). -/
theorem MsgContext.Inv.mlen_eq_zero {m : MsgContext} (h : m.Inv) (hm : m.mstate = .data)
    (hc : m.mlen.toNat ≤ m.mcur.toNat) : m.mlen = 0 := by
  obtain ⟨-, -, hdata, -⟩ := h
  exact (hdata hm).resolve_left (not_lt.mpr hc)

section Advance

variable {m : MsgContext} (hcur : m.mstate = .data → m.mcur.toNat < m.mlen.toNat)

include hcur

theorem MsgContext.advance_inv (h : m.Inv) : m.advance.Inv := by
  obtain ⟨hle, hheader, hdata, hdone⟩ := h
  cases hm : m.mstate with
  | data =>
    have hlt := hcur hm
    by_cases hl : m.mcur.toNat + 1 = m.mlen.toNat
    · rw [MsgContext.advance_last hm hlt hl]
      simp [MsgContext.Inv]
    · have hsucc := cursor_succ_toNat hlt
      rw [MsgContext.advance_more hm hlt hl]
      simp only [MsgContext.Inv, hm]
      exact ⟨by omega, by simp, fun _ => .inl (by omega), by simp⟩
  | header =>
    have hpos : 0 < m.mlen.toNat ∨ m.mlen = 0 :=
      (Nat.eq_zero_or_pos _).symm.imp_right fun h0 => BitVec.eq_of_toNat_eq h0
    simp_all [MsgContext.Inv, MsgContext.advance]
  | idle | ckh | ckl | endMark | sent => simp_all [MsgContext.Inv, MsgContext.advance]

/-- Every acceptance counts one byte more. -/
theorem sentCount_advance (hidle : m.mstate ≠ .idle) (hsent : m.mstate ≠ .sent) (h : m.Inv) :
    sentCount m.advance = sentCount m + 1 := by
  cases hm : m.mstate with
  | data =>
    have hlt := hcur hm
    by_cases hl : m.mcur.toNat + 1 = m.mlen.toNat
    · simp only [MsgContext.advance_last hm hlt hl, sentCount, hm]
      omega
    · simp only [MsgContext.advance_more hm hlt hl, sentCount, hm, cursor_succ_toNat hlt]
      omega
  | idle => exact absurd hm hidle
  | sent => exact absurd hm hsent
  | header =>
    obtain ⟨-, hheader, -⟩ := h
    simp [sentCount, MsgContext.advance, hm, hheader hm]
  | ckh | ckl | endMark => simp only [sentCount, MsgContext.advance, hm]; omega

end Advance

/-! ### The frame -/

theorem payload_length (mem : Memory) (ptr len : BitVec 16) :
    (payload mem ptr len).length = len.toNat := by
  simp [payload]

theorem frame_eq (s : State) :
    frame s = 0x3A :: (payload s.mem s.msg.mptr s.msg.mlen ++
      [highDigit s.msg.mck, lowDigit s.msg.mck, 0x0A]) := by
  simp [frame, highDigit_eq_digit, lowDigit_eq_digit]

theorem payload_at {mem : Memory} {ptr len : BitVec 16} {k : Nat} (hk : k < len.toNat) :
    (payload mem ptr len)[k]? = some (mem.read (payloadAddr ptr k)) := by
  simp [payload, hk, byteAddr_eq_payloadAddr]

/-- The byte a `MSG.STEP` attempts is the frame's next one. -/
theorem frame_at_sentCount {s : State} {b : Byte} (h : nextByte s = some b) :
    (frame s)[sentCount s.msg]? = some b := by
  have hlen := payload_length s.mem s.msg.mptr s.msg.mlen
  rw [frame_eq]
  cases hm : s.msg.mstate with
  | data =>
    have hlt := cursor_lt_of_nextByte h hm
    simp only [nextByte, hm, hlt, if_true] at h
    rw [sentCount, hm, Nat.add_comm, List.getElem?_cons_succ, List.getElem?_append_left (by omega),
      payload_at hlt, h]
  | idle | sent => simp [nextByte, hm] at h
  | header | ckh | ckl | endMark =>
    simp only [nextByte, hm] at h
    simp [sentCount, hm, Nat.add_comm _ s.msg.mlen.toNat, hlen, ← h]

/-- The frame depends on the payload bytes and on what `MSG.INIT` wrote. -/
theorem frame_congr {s s' : State} (hptr : s'.msg.mptr = s.msg.mptr) (hlen : s'.msg.mlen = s.msg.mlen)
    (hck : s'.msg.mck = s.msg.mck)
    (hmem : ∀ k, k < s.msg.mlen.toNat →
      s'.mem.read (payloadAddr s.msg.mptr k) = s.mem.read (payloadAddr s.msg.mptr k)) :
    frame s' = frame s := by
  have hpayload : payload s'.mem s.msg.mptr s.msg.mlen = payload s.mem s.msg.mptr s.msg.mlen :=
    List.map_congr_left fun k hk => by
      simpa only [byteAddr_eq_payloadAddr] using hmem k (List.mem_range.mp hk)
  rw [frame, frame, hptr, hlen, hck, hpayload]

@[simp] theorem MsgContext.advance_mptr (m : MsgContext) : m.advance.mptr = m.mptr := by
  unfold MsgContext.advance; split <;> rfl
@[simp] theorem MsgContext.advance_mlen (m : MsgContext) : m.advance.mlen = m.mlen := by
  unfold MsgContext.advance; split <;> rfl
@[simp] theorem MsgContext.advance_mck (m : MsgContext) : m.advance.mck = m.mck := by
  unfold MsgContext.advance; split <;> rfl

/-! ### The states after a `MSG.STEP` -/

section AfterStep

variable (s : State) (b : Byte)

theorem afterAttempt_msg :
    (s.afterAttempt b).msg = if s.nextAnswer then s.msg.advance else s.msg := rfl

theorem afterAttempt_accepted (ha : s.nextAnswer = true) :
    (s.afterAttempt b).msg = s.msg.advance := by
  rw [afterAttempt_msg, ha, if_pos rfl]

theorem afterAttempt_rejected (ha : s.nextAnswer = false) :
    (s.afterAttempt b).msg = s.msg := by
  rw [afterAttempt_msg, ha, if_neg Bool.false_ne_true]

theorem afterAttempt_msgFrame : MsgFrame s (s.afterAttempt b) := ⟨rfl, fun _ => rfl, rfl, rfl⟩

theorem afterAttempt_attempted : Attempted b s (s.afterAttempt b) := ⟨rfl, rfl, rfl⟩

/-- The response has `done = 1` in `END` on acceptance alone (44 R124). -/
theorem afterAttempt_responds :
    Responds (s.afterAttempt b) (s.nextAnswer && decide (s.msg.mstate = .endMark)) := rfl

theorem afterAttempt_responds_false (h : s.nextAnswer = false ∨ s.msg.mstate ≠ .endMark) :
    Responds (s.afterAttempt b) false := by
  have hdone : (s.nextAnswer && decide (s.msg.mstate = .endMark)) = false := by
    obtain ha | hm := h
    · simp [ha]
    · simp [hm]
  exact hdone ▸ afterAttempt_responds s b

theorem afterAttempt_wire :
    wireOf (s.afterAttempt b) = if s.nextAnswer then wireOf s ++ [b] else wireOf s :=
  State.tryWrite_wire s b

theorem afterAttempt_frame : frame (s.afterAttempt b) = frame s := by
  cases ha : s.nextAnswer with
  | true =>
    have hmsg := afterAttempt_accepted s b ha
    exact frame_congr (by simp [hmsg]) (by simp [hmsg]) (by simp [hmsg]) fun _ _ => rfl
  | false =>
    have hmsg := afterAttempt_rejected s b ha
    exact frame_congr (by rw [hmsg]) (by rw [hmsg]) (by rw [hmsg]) fun _ _ => rfl

theorem afterEmptyPayload_notAttempted : NotAttempted s s.afterEmptyPayload := ⟨rfl, rfl, rfl⟩

end AfterStep

/-- A `MSG.STEP` keeps the message invariant. -/
theorem exec_msgStep_inv {s s' : State} (hinv : s.msg.Inv) (h : exec .msgStep s = .next s') :
    s'.msg.Inv := by
  obtain ⟨-, he⟩ | ⟨b, hb, he⟩ | ⟨hm, hc, he⟩ := exec_msgStep_cases s <;>
    obtain rfl := Host.Outcome.next.inj (he.symm.trans h)
  · exact hinv
  · cases ha : s.nextAnswer with
    | true =>
      rw [afterAttempt_accepted s b ha]
      exact MsgContext.advance_inv (cursor_lt_of_nextByte hb) hinv
    | false => rwa [afterAttempt_rejected s b ha]
  · have heq : s.msg.mcur = s.msg.mlen := BitVec.eq_of_toNat_eq (le_antisymm hinv.1 hc)
    exact ⟨hinv.1, by simp [State.afterEmptyPayload], by simp [State.afterEmptyPayload], fun _ => heq⟩

/-! ### The wire is the frame so far -/

section FrameSoFar

variable {base : List Byte} {s : State}

/-- An accepted byte makes the wire one byte of the frame longer. -/
theorem frameSoFar_afterAttempt {b : Byte} (hinv : s.msg.Inv) (hb : nextByte s = some b)
    (h : FrameSoFar base s) : FrameSoFar base (s.afterAttempt b) := by
  rw [FrameSoFar, afterAttempt_wire, afterAttempt_frame]
  cases ha : s.nextAnswer with
  | true =>
    obtain ⟨hidle, hsent⟩ := not_or.mp (not_illegal_of_nextByte hb)
    rw [if_pos rfl, afterAttempt_accepted s b ha,
      sentCount_advance (cursor_lt_of_nextByte hb) hidle hsent hinv, List.take_add_one,
      frame_at_sentCount hb, h, List.append_assoc]
    rfl
  | false => rwa [if_neg Bool.false_ne_true, afterAttempt_rejected s b ha]

/-- The empty payload counts no byte (44 R121). -/
theorem frameSoFar_afterEmptyPayload (hinv : s.msg.Inv) (hm : s.msg.mstate = .data)
    (hc : s.msg.mlen.toNat ≤ s.msg.mcur.toNat) (h : FrameSoFar base s) :
    FrameSoFar base s.afterEmptyPayload := by
  have heq : s.msg.mcur.toNat = s.msg.mlen.toNat := le_antisymm hinv.1 hc
  have hcount : sentCount s.afterEmptyPayload.msg = sentCount s.msg := by
    simp only [State.afterEmptyPayload, sentCount, hm, heq]
  rw [FrameSoFar, hcount]
  exact h

theorem exec_msgStep_frameSoFar {s' : State} (hinv : s.msg.Inv) (h : FrameSoFar base s)
    (hexec : exec .msgStep s = .next s') : FrameSoFar base s' := by
  obtain ⟨-, he⟩ | ⟨b, hb, he⟩ | ⟨hm, hc, he⟩ := exec_msgStep_cases s <;>
    obtain rfl := Host.Outcome.next.inj (he.symm.trans hexec)
  · exact h
  · exact frameSoFar_afterAttempt hinv hb h
  · exact frameSoFar_afterEmptyPayload hinv hm hc h

/-- What leaves the context, the attempts and the payload bytes leaves the frame so far. -/
theorem frameSoFar_congr {s' : State} (h : FrameSoFar base s) (hmsg : s'.msg = s.msg)
    (hattempts : s'.attempts = s.attempts)
    (hmem : ∀ k, k < s.msg.mlen.toNat →
      s'.mem.read (payloadAddr s.msg.mptr k) = s.mem.read (payloadAddr s.msg.mptr k)) :
    FrameSoFar base s' := by
  have hframe : frame s' = frame s := frame_congr (by rw [hmsg]) (by rw [hmsg]) (by rw [hmsg]) hmem
  rw [FrameSoFar, wireOf, hattempts, hframe, hmsg]
  exact h

/-- Every command but `MSG.INIT` keeps the frame so far. -/
theorem exec_frameSoFar {i : Instr} {s' : State} (hinit : isMsgInit i = false) (hinv : s.msg.Inv)
    (h : FrameSoFar base s) (hexec : exec i s = .next s') : FrameSoFar base s' := by
  cases hp : isPwm i with
  | true =>
    obtain ⟨hmem, -, hkeeps, -⟩ := unitsShareNoState i s s' hexec
    obtain ⟨hmsg, hattempts, -⟩ := hkeeps hp
    exact frameSoFar_congr h hmsg hattempts fun _ _ => by rw [hmem]
  | false =>
    cases i with
    | msgStep => exact exec_msgStep_frameSoFar hinv h hexec
    | msgInit ptr len => cases hinit
    | _ => cases hp

/-- A host write to another byte leaves the payload's bytes. -/
theorem payload_read_write {addr : Addr} {b : Byte} (hwf : s.mem.wf = true)
    (haddr : ¬ PayloadByte s addr) {k : Nat} (hk : k < s.msg.mlen.toNat) :
    (s.mem.write addr b).read (payloadAddr s.msg.mptr k) = s.mem.read (payloadAddr s.msg.mptr k) := by
  rw [Memory.read_write _ _ _ _ hwf, if_neg]
  rintro rfl
  exact haddr ⟨k, hk, (byteAddr_eq_payloadAddr ..).symm⟩

end FrameSoFar

/-- Settles O50: `MSG.INIT` counts no byte yet; then an acceptance adds the frame's next byte
(`frameSoFar_afterAttempt`) and every other event leaves wire, frame and count. -/
theorem wireIsTheFrameSoFar : Obligations.WireIsTheFrameSoFar := by
  unfold Obligations.WireIsTheFrameSoFar
  refine ⟨fun s s' ptr len h => ?_, fun base s s' hinv hframe h hkeeps => ?_⟩
  · obtain rfl := respond_next h
    exact (List.append_nil _).symm
  · obtain ⟨-, rfl⟩ | ⟨w, rest, i, hin, hdec, hexec⟩ | ⟨w, rest, reason, -, -, hi⟩ |
      ⟨addr, b, rest, hin, hw⟩ | ⟨rest, hin, -⟩ := step_next h
    · exact hframe
    · have hinit : isMsgInit i = false := by
        cases i with
        | msgInit ptr len =>
          have hnot : ∀ ptr len, decode w ≠ .ok (.msgInit ptr len) :=
            hkeeps (.command w) (by rw [hin]; rfl)
          exact absurd hdec (hnot ptr len)
        | _ => rfl
      exact exec_frameSoFar (s := s.takeInput rest) hinit hinv hframe hexec
    · obtain rfl := illegal_next hi
      exact hframe
    · obtain ⟨hwf, haddr⟩ := hkeeps _ (by rw [hin]; rfl)
      obtain rfl := Host.Outcome.next.inj hw
      exact frameSoFar_congr hframe rfl rfl fun k hk => payload_read_write hwf haddr hk
    · exact absurd (hkeeps _ (by rw [hin]; rfl)) id

end Sys2Proof.Machine
end

section
/-! The arms of `MSG.STEP` and the checksum (spec/44_msg_framing.md R115 to R128). -/

namespace Sys2Proof.Machine

open Sys2Proof.Claims

/-! ### `MSG.INIT` -/

/-- The model's sum is the claims' sum of the bytes modulo 256 (44 R116). -/
theorem payloadSum_toNat (mem : Memory) (ptr len : BitVec 16) :
    (payloadSum mem ptr len.toNat).toNat = sumMod mem ptr len := by
  rw [sumMod, payload]
  induction len.toNat with
  | zero => rfl
  | succ n ih =>
    rw [payloadSum, BitVec.toNat_add, ih, List.range_succ]
    simp [byteAddr_eq_payloadAddr]

/-- The two's complement as a number (44 R116). -/
theorem checksumOf_toNat (x : Byte) : (checksumOf x).toNat = (256 - x.toNat) % 256 := by
  have hneg : checksumOf x = -x := by
    rw [checksumOf, BitVec.neg_eq_not_add, ← BitVec.xor_allOnes]
    rfl
  rw [hneg, BitVec.toNat_neg]

/-- Settles O39: `MCK` is `(256 - s) mod 256` for the sum `s` of the bytes (`checksumOf_toNat`,
`payloadSum_toNat`); the other forms and the special values are arithmetic on it. -/
theorem msgInitFormsChecksum : Obligations.MsgInitFormsChecksum := by
  unfold Obligations.MsgInitFormsChecksum
  intro s ptr len
  have hlt : sumMod s.mem ptr len < 256 := Nat.mod_lt _ (by decide)
  have hck : (checksumOf (payloadSum s.mem ptr len.toNat)).toNat =
      (256 - sumMod s.mem ptr len) % 256 := by
    rw [checksumOf_toNat, payloadSum_toNat]
  have hvalue : ∀ v : Byte, (256 - sumMod s.mem ptr len) % 256 = v.toNat →
      checksumOf (payloadSum s.mem ptr len.toNat) = v :=
    fun v hv => BitVec.eq_of_toNat_eq (hck.trans hv)
  refine ⟨_, rfl, ?_, hck, ?_, ?_, fun h => hvalue 0 (by rw [h]; rfl),
    fun h => hvalue 0x80 (by rw [h]; rfl), fun h => hvalue 0xFF (by rw [h]; rfl),
    fun h => hvalue 0x7D (by rw [h]; rfl), rfl, rfl, ⟨rfl, rfl, rfl⟩, ⟨rfl, fun _ => rfl, rfl, rfl⟩⟩
  · show (checksumOf _).toNat = _
    omega
  · show (_ + (checksumOf _).toNat) % 256 = 0
    omega
  · rintro rfl
    exact hvalue 0 (by simp [sumMod, payload])

/-- Settles O40: the sixteen digits. -/
theorem hexDigitsAreLowercase : Obligations.HexDigitsAreLowercase := by
  unfold Obligations.HexDigitsAreLowercase
  decide

/-! ### The `DATA` arm -/

theorem nextByte_data {s : State} (hm : s.msg.mstate = .data)
    (hlt : s.msg.mcur.toNat < s.msg.mlen.toNat) :
    nextByte s = some (s.mem.read (byteAddr s.msg.mptr s.msg.mcur.toNat)) := by
  simp only [nextByte, hm, hlt, if_true, byteAddr_eq_payloadAddr]

/-- The context after the acceptance of a payload byte. -/
theorem advance_data {m : MsgContext} (hm : m.mstate = .data) (hlt : m.mcur.toNat < m.mlen.toNat) :
    m.advance.mcur.toNat = m.mcur.toNat + 1 ∧
      m.advance = { m with
        mcur := m.advance.mcur
        mstate := if m.mcur.toNat + 1 = m.mlen.toNat then .ckh else .data } := by
  by_cases hl : m.mcur.toNat + 1 = m.mlen.toNat
  · simp [MsgContext.advance_last hm hlt hl, hl]
  · simp only [MsgContext.advance_more hm hlt hl, hl, if_false]
    exact ⟨cursor_succ_toNat hlt, by rw [← hm]⟩

/-- Settles O42: with a byte left `MSG.STEP` attempts it (`exec_msgStep_attempt`), otherwise it completes
the empty payload. -/
theorem dataArm : Obligations.DataArm := by
  unfold Obligations.DataArm
  refine fun s hm => ⟨fun hlt => ?_, fun hge => ?_⟩
  · refine ⟨_, exec_msgStep_attempt (nextByte_data hm hlt), afterAttempt_msgFrame .., ?_,
      afterAttempt_attempted .., fun ha => ?_, afterAttempt_rejected s _⟩
    · exact afterAttempt_responds_false s _ (.inr (by simp [hm]))
    · rw [afterAttempt_accepted s _ ha]
      exact advance_data hm hlt
  · exact ⟨_, exec_msgStep_emptyPayload hm hge, ⟨rfl, fun _ => rfl, rfl, rfl⟩, rfl,
      afterEmptyPayload_notAttempted s, rfl⟩

/-! ### Legality, attempts and rejection -/

/-- Settles O45: IDLE and SENT are I6 (`exec_illegal`), and after a `MSG.INIT` the start mark is next. -/
theorem stepWithoutFrameIsIllegal : Obligations.StepWithoutFrameIsIllegal := by
  unfold Obligations.StepWithoutFrameIsIllegal
  refine fun s hm => ⟨exec_illegal (i := .msgStep) hm, fun ptr len s1 h => ?_⟩
  obtain ⟨hheader, -⟩ := execMsgInit_header h
  have hb : nextByte s1 = some 0x3A := by simp only [nextByte, hheader]
  exact ⟨_, exec_msgStep_attempt hb, afterAttempt_responds_false s1 _ (.inr (by simp [hheader]))⟩

/-- Settles O47: the three outcomes of `exec_msgStep_cases`; by the invariant the one with no attempt is
the empty payload. That one byte is read is O38. -/
theorem oneAttemptPerStep : Obligations.OneAttemptPerStep := by
  unfold Obligations.OneAttemptPerStep
  intro s hinv
  suffices hcases : ∃ s', exec .msgStep s = .next s' ∧
      (NotAttempted s s' ∨ ∃ b, Attempted b s s') ∧
      (s.msg.mstate ≠ .idle → s.msg.mstate ≠ .sent →
        (s'.attempts = s.attempts ↔ s.msg.mstate = .data ∧ s.msg.mlen = 0)) by
    obtain ⟨s', he, hattempt, hexactly⟩ := hcases
    refine ⟨s', he, hattempt, hexactly, fun other hbyte => ?_⟩
    exact (commandsReadOnlyTheirBytes .msgStep s s' other he (fun _ _ h => Instr.noConfusion h)
      fun _ _ _ => hbyte).1
  obtain ⟨hi, he⟩ | ⟨b, hb, he⟩ | ⟨hm, hc, he⟩ := exec_msgStep_cases s
  · exact ⟨_, he, .inl ⟨rfl, rfl, rfl⟩, fun hidle hsent => absurd hi (not_or.mpr ⟨hidle, hsent⟩)⟩
  · refine ⟨_, he, .inr ⟨b, afterAttempt_attempted s b⟩, fun _ _ => iff_of_false ?_ ?_⟩
    · simp [State.afterAttempt]
    · rintro ⟨hm, hzero⟩
      have hlt := cursor_lt_of_nextByte hb hm
      simp [hzero] at hlt
  · have hzero := MsgContext.Inv.mlen_eq_zero hinv hm hc
    exact ⟨_, he, .inl (afterEmptyPayload_notAttempted s), fun _ _ => iff_of_true rfl ⟨hm, hzero⟩⟩

/-- What a command can do to the record of attempts. -/
theorem exec_attempts {i : Instr} {s s' : State} (h : exec i s = .next s') :
    s'.attempts = s.attempts ∨ (i = .msgStep ∧ ∃ b,
      s'.attempts = s.attempts ++ [{ byte := b, accepted := s.nextAnswer }] ∧
      wireOf s' = if s.nextAnswer then wireOf s ++ [b] else wireOf s) := by
  cases hp : isPwm i with
  | true =>
    obtain ⟨t, ch, hpair⟩ := exists_pair_of_isPwm hp
    obtain ⟨-, -, -, -, -, -, hattempts, -⟩ := exec_pwm_frame hpair h
    exact .inl hattempts
  | false =>
    cases i with
    | msgInit ptr len =>
      obtain rfl := respond_next h
      exact .inl rfl
    | msgStep =>
      obtain ⟨-, he⟩ | ⟨b, -, he⟩ | ⟨-, -, he⟩ := exec_msgStep_cases s <;>
        obtain rfl := Host.Outcome.next.inj (he.symm.trans h)
      · exact .inl rfl
      · exact .inr ⟨rfl, b, rfl, afterAttempt_wire s b⟩
      · exact .inl rfl
    | _ => cases hp

/-- Settles O48: of all events only a command can add an attempt, and `exec_attempts` says which. -/
theorem wireGrowsInOrder : Obligations.WireGrowsInOrder := by
  unfold Obligations.WireGrowsInOrder
  intro s s' h
  obtain ⟨-, rfl⟩ | ⟨w, rest, i, hin, hdec, hexec⟩ | ⟨w, rest, reason, -, -, hi⟩ |
    ⟨addr, b, rest, -, hw⟩ | ⟨rest, -, hr⟩ := step_next h
  · exact .inl rfl
  · exact (exec_attempts hexec).imp_right fun ⟨hi, b, hattempts, hwire⟩ =>
      ⟨w, rest, b, hin, hi ▸ hdec, hattempts, hwire⟩
  · exact .inl (by rw [illegal_next hi]; rfl)
  · obtain rfl := Host.Outcome.next.inj hw
    exact .inl rfl
  · obtain rfl := Host.Outcome.next.inj hr
    exact .inl rfl

/-- Settles O49: these are the states with a byte to attempt (`nextByte_cases`), and a rejection keeps
the context (`afterAttempt_rejected`). -/
theorem rejectionChangesNothing : Obligations.RejectionChangesNothing := by
  unfold Obligations.RejectionChangesNothing
  intro s ha hm
  obtain hi | ⟨b, hb⟩ | ⟨hdata, hge⟩ := nextByte_cases s
  · obtain hi | hi := hi <;> simp [hi] at hm
  · refine ⟨_, exec_msgStep_attempt hb, afterAttempt_rejected s b ha, ?_,
      afterAttempt_responds_false s b (.inl ha)⟩
    rw [afterAttempt_wire, ha, if_neg Bool.false_ne_true]
  · simp [hdata, not_lt.mpr hge] at hm

end Sys2Proof.Machine
end

section
/-! A frame whose bytes are all accepted completes (spec/44_msg_framing.md R128).
`Completing` says that the answers to come accept exactly the bytes of the frame that are left, the last
answer among them. One `MSG.STEP` either ends the frame, with nothing left, or answers `{0, 0}` and
leaves a completing state with one step less (`completing_step`); the statement is the induction on the
steps. -/

namespace Sys2Proof.Machine

open Sys2Proof.Claims

/-- The step with no attempt that the empty payload takes in `DATA`, while it is still to come (44
R121). -/
def emptyPayloadSteps (m : MsgContext) : Nat :=
  if m.mlen = 0 ∧ (m.mstate = .header ∨ m.mstate = .data) then 1 else 0

/-- A frame in progress whose bytes left are the ones that `given`, the next answers, accept, the last of
them at its end, within `n` steps. -/
structure Completing (given later : List Bool) (n : Nat) (s : State) : Prop where
  inv : s.msg.Inv
  legal : ¬ IllegalCommand s .msgStep
  answers : s.answers = given ++ later
  accepts : sentCount s.msg + given.count true = s.msg.mlen.toNat + 4
  last : given.getLast? = some true
  steps : n = given.length + emptyPayloadSteps s.msg

/-- The last answer is among the later ones, unless it is the first and accepts. -/
theorem getLast?_tail {a : Bool} {rest : List Bool} (h : (a :: rest).getLast? = some true)
    (hmore : a = false ∨ rest ≠ []) : rest.getLast? = some true := by
  rw [List.getLast?_cons, Option.some.injEq] at h
  cases hrest : rest.getLast? with
  | some x =>
    rw [hrest] at h
    exact congrArg some h
  | none =>
    rw [hrest] at h
    obtain rfl | hne := hmore
    · cases h
    · exact absurd (List.getLast?_eq_none_iff.mp hrest) hne

section InProgress

variable {m : MsgContext} (hidle : m.mstate ≠ .idle) (hsent : m.mstate ≠ .sent)

include hidle hsent

/-- With a byte to attempt in `DATA` the payload is not empty, so no such step is left or gained. -/
theorem emptyPayloadSteps_advance (hcur : m.mstate = .data → m.mcur.toNat < m.mlen.toNat) :
    emptyPayloadSteps m.advance = emptyPayloadSteps m := by
  cases hm : m.mstate with
  | idle => exact absurd hm hidle
  | sent => exact absurd hm hsent
  | data =>
    have hlt := hcur hm
    have hne : m.mlen ≠ 0 := by
      intro hzero
      simp [hzero] at hlt
    simp only [emptyPayloadSteps, MsgContext.advance_mlen, hne, false_and, if_false]
  | header | ckh | ckl | endMark => simp [emptyPayloadSteps, MsgContext.advance, hm]

/-- Before `END` an acceptance leaves the frame in progress. -/
theorem advance_inProgress (hend : m.mstate ≠ .endMark) :
    ¬ (m.advance.mstate = .idle ∨ m.advance.mstate = .sent) := by
  cases hm : m.mstate with
  | idle => exact absurd hm hidle
  | sent => exact absurd hm hsent
  | endMark => exact absurd hm hend
  | data =>
    simp only [MsgContext.advance, hm]
    split <;> simp
  | header | ckh | ckl => simp [MsgContext.advance, hm]

/-- Before `END` more than the end mark is left. -/
theorem sentCount_le (hinv : m.Inv) (hend : m.mstate ≠ .endMark) :
    sentCount m ≤ m.mlen.toNat + 2 := by
  have hle := hinv.1
  cases hm : m.mstate with
  | idle => exact absurd hm hidle
  | sent => exact absurd hm hsent
  | endMark => exact absurd hm hend
  | header | data | ckh | ckl => simp only [sentCount, hm]; omega

end InProgress

/-! ### One step -/

section Step

variable {given later : List Bool} {n : Nat} {s : State} {b : Byte}

theorem completing_rejected (h : Completing (false :: given) later (n + 1) s) :
    Completing given later n (s.afterAttempt b) := by
  obtain ⟨inv, legal, answers, accepts, last, steps⟩ := h
  have ha : s.nextAnswer = false := State.nextAnswer_cons s _ _ answers
  have hmsg := afterAttempt_rejected s b ha
  refine ⟨hmsg ▸ inv, by rwa [IllegalCommand, hmsg], congrArg List.tail answers, ?_,
    getLast?_tail last (.inl rfl), ?_⟩
  · rwa [hmsg, ← List.count_cons_of_ne (a := true) (b := false) (by decide)]
  · rw [List.length_cons] at steps
    rw [hmsg]
    omega

theorem completing_accepted (h : Completing (true :: given) later (n + 1) s)
    (hb : nextByte s = some b) (hend : s.msg.mstate ≠ .endMark) :
    Completing given later n (s.afterAttempt b) := by
  obtain ⟨inv, legal, answers, accepts, last, steps⟩ := h
  obtain ⟨hidle, hsent⟩ := not_or.mp legal
  have ha : s.nextAnswer = true := State.nextAnswer_cons s _ _ answers
  have hmsg := afterAttempt_accepted s b ha
  have hcur := cursor_lt_of_nextByte hb
  have hcount := sentCount_advance hcur hidle hsent inv
  have hleft := sentCount_le hidle hsent inv hend
  rw [List.count_cons_self] at accepts
  refine ⟨hmsg ▸ MsgContext.advance_inv hcur inv, ?_, congrArg List.tail answers, ?_,
    getLast?_tail last (.inr ?_), ?_⟩
  · rw [IllegalCommand, hmsg]
    exact advance_inProgress hidle hsent hend
  · rw [hmsg, hcount, MsgContext.advance_mlen]
    omega
  · rintro rfl
    rw [List.count_nil] at accepts
    omega
  · rw [List.length_cons] at steps
    rw [hmsg, emptyPayloadSteps_advance hidle hsent hcur]
    omega

/-- In `END` the one answer left is the last, and the step ends the frame with `done = 1`. -/
theorem completing_endMark (h : Completing (true :: given) later (n + 1) s)
    (hend : s.msg.mstate = .endMark) :
    n = 0 ∧ (s.afterAttempt b).msg.mstate = .sent ∧ Responds (s.afterAttempt b) true ∧
      (s.afterAttempt b).answers = later := by
  obtain ⟨inv, legal, answers, accepts, last, steps⟩ := h
  have ha : s.nextAnswer = true := State.nextAnswer_cons s _ _ answers
  have hnone : given = [] := by
    by_contra hne
    have hmem : true ∈ given := List.mem_of_getLast? (getLast?_tail last (.inr hne))
    have := List.count_pos_iff.mpr hmem
    simp only [sentCount, hend, List.count_cons_self] at accepts
    omega
  subst hnone
  refine ⟨?_, ?_, ?_, congrArg List.tail answers⟩
  · simpa [emptyPayloadSteps, hend] using steps
  · rw [afterAttempt_accepted s b ha]
    simp [MsgContext.advance, hend]
  · simpa [ha, hend] using afterAttempt_responds s b

theorem completing_emptyPayload (h : Completing given later n s) (hm : s.msg.mstate = .data)
    (hc : s.msg.mlen.toNat ≤ s.msg.mcur.toNat) :
    n = given.length + 1 ∧ Completing given later given.length s.afterEmptyPayload := by
  obtain ⟨inv, legal, answers, accepts, last, steps⟩ := h
  have hzero := MsgContext.Inv.mlen_eq_zero inv hm hc
  have hcur : s.msg.mcur.toNat = 0 := by
    have := inv.1
    simpa [hzero] using this
  refine ⟨by simpa [emptyPayloadSteps, hzero, hm] using steps,
    exec_msgStep_inv inv (exec_msgStep_emptyPayload hm hc), ?_, answers, ?_, last, ?_⟩
  · simp [IllegalCommand, State.afterEmptyPayload]
  · simpa [sentCount, State.afterEmptyPayload, hm, hzero, hcur] using accepts
  · simp [emptyPayloadSteps, State.afterEmptyPayload]

/-- One `MSG.STEP` ends the frame, or leaves a completing state with one step less. -/
theorem completing_step (h : Completing given later n s) :
    ∃ k s', n = k + 1 ∧ exec .msgStep s = .next s' ∧
      ((k = 0 ∧ s'.msg.mstate = .sent ∧ Responds s' true ∧ s'.answers = later) ∨
        (Responds s' false ∧ ∃ rest, Completing rest later k s')) := by
  obtain ⟨hi, -⟩ | ⟨b, hb, he⟩ | ⟨hm, hc, he⟩ := exec_msgStep_cases s
  · exact absurd hi h.legal
  · cases given with
    | nil => exact absurd h.last (by simp)
    | cons a rest =>
      obtain ⟨k, rfl⟩ : ∃ k, n = k + 1 := ⟨rest.length + emptyPayloadSteps s.msg, by
        rw [h.steps, List.length_cons]; omega⟩
      refine ⟨k, _, rfl, he, ?_⟩
      have ha : s.nextAnswer = a := State.nextAnswer_cons s _ _ h.answers
      cases a with
      | false => exact .inr ⟨afterAttempt_responds_false s b (.inl ha), rest, completing_rejected h⟩
      | true =>
        by_cases hend : s.msg.mstate = .endMark
        · exact .inl (completing_endMark h hend)
        · exact .inr ⟨afterAttempt_responds_false s b (.inr hend), rest,
            completing_accepted h hb hend⟩
  · obtain ⟨rfl, hnext⟩ := completing_emptyPayload h hm hc
    exact ⟨_, _, rfl, he, .inr ⟨rfl, _, hnext⟩⟩

end Step

/-! ### Driving -/

theorem drive_succ {s s' : State} (h : exec .msgStep s = .next s') (n : Nat) :
    drive (n + 1) s = drive n s' := by
  simp only [drive, h]

/-- A completing state driven to its end, with no `done = 1` before. -/
theorem drive_completes {given later : List Bool} {n : Nat} {s : State}
    (h : Completing given later n s) :
    (∃ s', drive n s = .next s' ∧ s'.msg.mstate = .sent ∧ Responds s' true ∧ s'.answers = later) ∧
    ∀ k, 0 < k → k < n → ∃ s', drive k s = .next s' ∧ Responds s' false := by
  induction n generalizing given s with
  | zero =>
    obtain ⟨k, s1, hk, -⟩ := completing_step h
    omega
  | succ n ih =>
    obtain ⟨k, s1, hk, he, hcases⟩ := completing_step h
    obtain rfl : n = k := Nat.succ.inj hk
    obtain ⟨rfl, hend⟩ | ⟨hr, rest, hnext⟩ := hcases
    · exact ⟨⟨s1, by rw [drive_succ he]; rfl, hend⟩, fun j hj hlt => by omega⟩
    · obtain ⟨hfinal, hearlier⟩ := ih hnext
      refine ⟨by rwa [drive_succ he], fun j hj hlt => ?_⟩
      obtain ⟨j, rfl⟩ : ∃ i, j = i + 1 := ⟨j - 1, by omega⟩
      rw [drive_succ he]
      cases j with
      | zero => exact ⟨s1, rfl, hr⟩
      | succ j => exact hearlier (j + 1) (by omega) (by omega)

/-- Driving keeps the frame, and the wire the frame so far. -/
theorem drive_frameSoFar {base : List Byte} {n : Nat} {s s' : State} (hinv : s.msg.Inv)
    (hwire : FrameSoFar base s) (h : drive n s = .next s') :
    FrameSoFar base s' ∧ frame s' = frame s := by
  induction n generalizing s with
  | zero =>
    obtain rfl := Host.Outcome.next.inj h
    exact ⟨hwire, rfl⟩
  | succ n ih =>
    obtain ⟨s1, he, -⟩ := oneAttemptPerStep s hinv
    rw [drive_succ he] at h
    obtain ⟨-, hmem, -, -, hptr, hlen, hck⟩ := execMsgStep_keeps he
    obtain ⟨hwire', hframe⟩ := ih (exec_msgStep_inv hinv he) (exec_msgStep_frameSoFar hinv hwire he) h
    exact ⟨hwire', hframe.trans (frame_congr hptr hlen hck fun _ _ => by rw [hmem])⟩

theorem frame_length (s : State) : (frame s).length = 4 + s.msg.mlen.toNat := by
  simp [frame, payload_length]
  omega

/-- Settles O51: the state in `HEADER` is completing, so it is driven to `SENT` (`drive_completes`), and
there the wire is the whole frame (`drive_frameSoFar`). -/
theorem frameCompletes : Obligations.FrameCompletes := by
  unfold Obligations.FrameCompletes
  intro s given later n hm hcur hanswers haccepts hlast hn
  have hinv : s.msg.Inv := by simp [MsgContext.Inv, hm, hcur]
  have hcompleting : Completing given later n s :=
    { inv := hinv
      legal := by simp [IllegalCommand, hm]
      answers := hanswers
      accepts := by simp [sentCount, hm, haccepts]
      last := hlast
      steps := by simp [hn, emptyPayloadSteps, hm] }
  obtain ⟨⟨s', hdrive, hsent, hr, hlater⟩, hearlier⟩ := drive_completes hcompleting
  have hstart : FrameSoFar (wireOf s) s := by simp [FrameSoFar, sentCount, hm]
  obtain ⟨hwire, hframe⟩ := drive_frameSoFar hinv hstart hdrive
  have hcount : sentCount s'.msg = (frame s').length := by
    rw [frame_length, sentCount, hsent]
  rw [FrameSoFar, hcount, List.take_length, hframe] at hwire
  exact ⟨⟨s', hdrive, hsent, hr, hwire, hlater⟩, hearlier⟩

end Sys2Proof.Machine
end

section
/-! The patterns and the names of the modes (spec/10_state.md R16, R17). -/

namespace Sys2Proof.Machine

open Sys2Proof.Claims

theorem WaveMode.mem_all (m : WaveMode) : m ∈ WaveMode.all := by
  cases m with
  | normal => decide
  | free m w => cases m <;> cases w <;> decide
  | ocra m => cases m <;> decide

/-- On a kind of timer that has both, two modes have different patterns (10 R16). -/
theorem wavePattern_injective {kind : TimerKind} {m m' : WaveMode} {p : BitVec 4}
    (h : wavePattern kind m = some p) (h' : wavePattern kind m' = some p) : m = m' := by
  have hall : ∀ m ∈ WaveMode.all, ∀ m' ∈ WaveMode.all,
      wavePattern kind m = wavePattern kind m' → wavePattern kind m ≠ none → m = m' := by
    cases kind <;> decide
  exact hall m m.mem_all m' m'.mem_all (h.trans h'.symm) (by simp [h])

/-- A pattern names the mode whose pattern it is. -/
theorem waveName_eq_some_iff {kind : TimerKind} {p : BitVec 4} {m : WaveMode} :
    waveName kind p = some m ↔ wavePattern kind m = some p where
  mp h := of_decide_eq_true (List.find?_some h :)
  mpr h := by
    cases hn : waveName kind p with
    | none =>
      have hnone := List.find?_eq_none.mp hn m m.mem_all
      exact absurd (decide_eq_true h) hnone
    | some m' =>
      have h' : wavePattern kind m' = some p := of_decide_eq_true (List.find?_some hn :)
      rw [wavePattern_injective h h']

/-- The patterns of the free-running modes are the spec's, on the kinds that have them. -/
theorem wavePattern_free {kind : TimerKind} {w : CounterWidth} (m : PwmMode)
    (h : kind = .t16 ∨ w = .w8) : wavePattern kind (.free m w) = some (freePattern kind m w) := by
  obtain rfl | rfl := h
  · cases m <;> cases w <;> rfl
  · cases kind <;> cases m <;> rfl

/-- The `OCRA` patterns of an 8-bit timer. -/
theorem wavePattern_ocra {kind : TimerKind} (h : kind ≠ .t16) :
    wavePattern kind (.ocra .pc) = some 0b0101 ∧ wavePattern kind (.ocra .fast) = some 0b0111 := by
  cases kind with
  | t16 => exact absurd rfl h
  | t8_5 | t8_7 => exact ⟨rfl, rfl⟩

/-- Settles O18: the patterns by kind, and that `waveName` inverts `wavePattern`
(`waveName_eq_some_iff`). -/
theorem patternsNameModes : Obligations.PatternsNameModes := by
  unfold Obligations.PatternsNameModes
  exact ⟨fun kind m w => wavePattern_free m, wavePattern_normal, fun kind => wavePattern_ocra, rfl, rfl,
    fun kind p m => waveName_eq_some_iff, rfl⟩

end Sys2Proof.Machine
end

section
/-! The invariants (spec/00_scope.md R6, spec/10_state.md R15 to R18, spec/44_msg_framing.md R125,
spec/70_reset_and_hazards.md R163). A timer after a command is the one before or the one written
(`exec_timer_cases`), so an invariant of a timer is one of the values written. -/

namespace Sys2Proof.Machine

open Sys2Proof.Claims

/-! ### The checksum -/

section NotInit

variable {i : Instr} {s s' : State} (hinit : isMsgInit i = false)

include hinit

/-- Only `MSG.INIT` changes `MCK`, `MPTR` or `MLEN`. -/
theorem exec_frame_registers (h : exec i s = .next s') :
    s'.msg.mck = s.msg.mck ∧ s'.msg.mptr = s.msg.mptr ∧ s'.msg.mlen = s.msg.mlen := by
  obtain hi | hmsg | ⟨-, hptr, hlen, hck⟩ := exec_msg_writers h
  · exact absurd (hinit.symm.trans hi) Bool.false_ne_true
  · simp [hmsg]
  · exact ⟨hck, hptr, hlen⟩

/-- Only `MSG.INIT` leaves `IDLE`. -/
theorem exec_idle (h : exec i s = .next s') (hidle : s.msg.mstate = .idle) :
    s'.msg.mstate = .idle := by
  obtain hkept | ⟨-, hlow, -⟩ | ⟨hi, -⟩ := exec_mstate h
  · rw [hkept, hidle]
  · rw [hidle] at hlow
    exact absurd hlow (by decide)
  · exact absurd (hinit.symm.trans hi) Bool.false_ne_true

end NotInit

theorem exec_checksumFormed {i : Instr} {s s' : State} (hformed : s.ChecksumFormed)
    (h : exec i s = .next s') : s'.ChecksumFormed := by
  cases hinit : isMsgInit i with
  | true =>
    cases i with
    | msgInit ptr len =>
      obtain rfl := respond_next h
      exact fun _ => rfl
    | _ => cases hinit
  | false =>
    obtain ⟨hck, hptr, hlen⟩ := exec_frame_registers hinit h
    intro hbusy
    rw [hck, hptr, hlen, exec_next_mem h]
    exact hformed fun hidle => hbusy (exec_idle hinit h hidle)

theorem step_checksumFormed {s s' : State} (hformed : s.ChecksumFormed) (h : step s = .next s')
    (hkeeps : ∀ addr b, s.inputs.head? = some (.memWrite addr b) →
      s.mem.wf = true ∧ ¬ PayloadByte s addr) : s'.ChecksumFormed := by
  obtain ⟨-, rfl⟩ | ⟨w, rest, i, -, -, hexec⟩ | ⟨w, rest, reason, -, -, hi⟩ |
    ⟨addr, b, rest, hin, hw⟩ | ⟨rest, -, hr⟩ := step_next h
  · exact hformed
  · exact exec_checksumFormed (s := s.takeInput rest) hformed hexec
  · obtain rfl := illegal_next hi
    exact hformed
  · obtain ⟨hwf, haddr⟩ := hkeeps addr b (by rw [hin]; rfl)
    obtain rfl := Host.Outcome.next.inj hw
    intro hbusy
    refine (hformed hbusy).trans (congrArg checksumOf (payloadSum_congr fun k hk => ?_).symm)
    exact payload_read_write hwf haddr hk
  · exact fun hbusy => absurd (congrArg MsgContext.mstate (resetInput_msg hr)) hbusy

/-- The frame's own registers change as `MSG.INIT` or as reset only. -/
theorem step_frame_registers {s s' : State} (h : step s = .next s') :
    (s'.msg.mck = s.msg.mck ∧ s'.msg.mptr = s.msg.mptr ∧ s'.msg.mlen = s.msg.mlen) ∨
    (∃ w rest ptr len, s.inputs = .command w :: rest ∧ decode w = .ok (.msgInit ptr len) ∧
      s'.msg.mck = checksumOf (payloadSum s.mem ptr len.toNat) ∧ s'.msg.mptr = ptr ∧
      s'.msg.mlen = len) ∨
    (∃ rest, s.inputs = .reset :: rest ∧ s'.msg.mstate = .idle) := by
  obtain ⟨-, rfl⟩ | ⟨w, rest, i, hin, hdec, hexec⟩ | ⟨w, rest, reason, -, -, hi⟩ |
    ⟨addr, b, rest, -, hw⟩ | ⟨rest, hin, hr⟩ := step_next h
  · exact .inl ⟨rfl, rfl, rfl⟩
  · cases hinit : isMsgInit i with
    | true =>
      cases i with
      | msgInit ptr len =>
        obtain rfl := respond_next hexec
        exact .inr (.inl ⟨w, rest, ptr, len, hin, hdec, rfl, rfl, rfl⟩)
      | _ => cases hinit
    | false => exact .inl (exec_frame_registers (s := s.takeInput rest) hinit hexec)
  · exact .inl (by simp [illegal_msg hi])
  · exact .inl (by simp [hostWrite_msg hw])
  · exact .inr (.inr ⟨rest, hin, by rw [resetInput_msg hr]; rfl⟩)

/-- Settles O55: in the reset state there is no frame, and the rest is `step_checksumFormed` and
`step_frame_registers`. -/
theorem checksumStaysFormed : Obligations.ChecksumStaysFormed := by
  unfold Obligations.ChecksumStaysFormed
  exact ⟨fun h => absurd rfl h, fun s s' => step_checksumFormed, fun s s' => step_frame_registers⟩

/-! ### The registers of a timer -/

theorem timer_inv_iff (tm : Timer) : tm.Inv ↔ ∀ c, Chan.Inv tm.kind (tm.chan c) :=
  ⟨fun h c => by cases c; exacts [h.1, h.2], fun h => ⟨h .A, h .B⟩⟩

/-- A value cut to the compare register's width fits it (42 R101). -/
theorem truncCompare_toNat (kind : TimerKind) (v : Nat) :
    (truncCompare kind v).toNat = v % 2 ^ compareWidth kind := by
  cases kind <;> simp [truncCompare, compareWidth] <;> omega

theorem truncCompare_lt (kind : TimerKind) (v : Nat) :
    (truncCompare kind v).toNat < 2 ^ compareWidth kind := by
  rw [truncCompare_toNat]
  exact Nat.mod_lt _ (by positivity)

theorem ocrWritten_lt {i : Instr} {draw : Nat} {kind : TimerKind} {c : Channel} {old : BitVec 16}
    (hold : old.toNat < 2 ^ compareWidth kind) :
    ((ocrWritten i draw kind c).getD old).toNat < 2 ^ compareWidth kind := by
  cases i with
  | pwmDuty t ch v =>
    by_cases hc : c = ch <;> simp [ocrWritten, hc, hold, truncCompare_lt]
  | pwmExact t ch f cpu =>
    by_cases hc : c = .A <;> simp [ocrWritten, hc, hold, exactOcr, truncCompare_lt]
  | _ => exact hold

/-- A command writes `CLEAR` only with the binding. -/
theorem comWritten_inv {i : Instr} {c : Channel} {com : BitVec 2} {bound : Bool}
    (hold : com = 0b00 ∨ (com = 0b10 ∧ bound = true)) :
    (comWritten i c).getD com = 0b00 ∨
      ((comWritten i c).getD com = 0b10 ∧ (bindingWritten i c).getD bound = true) := by
  cases i with
  | pwmInit t ch =>
    by_cases hc : c = ch
    · simp [comWritten, bindingWritten, hc]
    · simpa [comWritten, bindingWritten, hc] using hold
  | pwmClose t ch =>
    by_cases hc : c = ch
    · simp [comWritten, hc]
    · simpa [comWritten, bindingWritten, hc] using hold
  | _ => exact hold

theorem pwmWrite_inv {i : Instr} {draw : Nat} {tm : Timer} (h : tm.Inv) : (pwmWrite i draw tm).Inv := by
  rw [timer_inv_iff] at h ⊢
  intro c
  obtain ⟨hocr, hcom, hddr⟩ := h c
  rw [pwmWrite_chan, pwmWrite_kind]
  exact ⟨ocrWritten_lt hocr, comWritten_inv hcom, by rw [hddr]⟩

theorem reset_inv (kind : TimerKind) : (Timer.reset kind).Inv := by
  cases kind <;> decide

/-! ### Invariants of every timer -/

/-- A property of a timer that every timer of the next state has, when the writer of the command keeps
it. -/
theorem exec_forall_timers {P : Timer → Prop} {i : Instr} {s s' : State} (h : exec i s = .next s')
    (hwrite : ∀ tm, P tm → P (pwmWrite i s.pwmDraws tm)) (hall : ∀ tm ∈ s.timers, P tm) :
    ∀ tm ∈ s'.timers, P tm := by
  intro tm' htm'
  obtain ⟨t, ht'⟩ := List.mem_iff_getElem?.mp htm'
  have hlt : t < s.timers.length := exec_timers_length h ▸ (List.getElem?_eq_some_iff.mp ht').1
  have ht := List.getElem?_eq_getElem hlt
  have hold := hall _ (List.getElem_mem hlt)
  obtain rfl | ⟨-, -, -, rfl⟩ := exec_timer_cases h ht ht'
  · exact hold
  · exact hwrite _ hold

/-- The same over a step: reset timers have the property, and the other events keep the timers. -/
theorem step_forall_timers {P : Timer → Prop} {s s' : State} (h : step s = .next s')
    (hreset : ∀ kind, P (Timer.reset kind))
    (hwrite : ∀ w rest i, s.inputs = .command w :: rest → decode w = .ok i →
      ∀ draw tm, P tm → P (pwmWrite i draw tm))
    (hall : ∀ tm ∈ s.timers, P tm) : ∀ tm ∈ s'.timers, P tm := by
  obtain ⟨-, rfl⟩ | ⟨w, rest, i, hin, hdec, hexec⟩ | ⟨w, rest, reason, -, -, hi⟩ |
    ⟨addr, b, rest, -, hw⟩ | ⟨rest, -, hr⟩ := step_next h
  · exact hall
  · exact exec_forall_timers hexec (hwrite w rest i hin hdec _) hall
  · obtain rfl := illegal_next hi
    exact hall
  · obtain rfl := Host.Outcome.next.inj hw
    exact hall
  · obtain rfl := Host.Outcome.next.inj hr
    intro tm' htm'
    obtain ⟨tm, -, rfl⟩ := List.mem_map.mp htm'
    exact hreset tm.kind

/-! ### The invariant of the state -/

theorem exec_msg_inv {i : Instr} {s s' : State} (hinv : s.msg.Inv) (h : exec i s = .next s') :
    s'.msg.Inv := by
  cases hp : isPwm i with
  | true => rwa [exec_pwm_msg hp h]
  | false =>
    cases i with
    | msgInit ptr len =>
      obtain rfl := respond_next h
      simp [MsgContext.Inv]
    | msgStep => exact exec_msgStep_inv hinv h
    | _ => cases hp

/-- A step keeps the number of timers, the message invariant and the canonical form of memory. -/
theorem step_keeps_rest {s s' : State} (hinv : s.msg.Inv) (hwf : s.mem.wf = true)
    (h : step s = .next s') :
    s'.timers.length = s.timers.length ∧ s'.msg.Inv ∧ s'.mem.wf = true := by
  obtain ⟨-, rfl⟩ | ⟨w, rest, i, -, -, hexec⟩ | ⟨w, rest, reason, -, -, hi⟩ |
    ⟨addr, b, rest, -, hw⟩ | ⟨rest, -, hr⟩ := step_next h
  · exact ⟨rfl, hinv, hwf⟩
  · exact ⟨exec_timers_length (s := s.takeInput rest) hexec,
      exec_msg_inv (s := s.takeInput rest) hinv hexec, exec_next_mem hexec ▸ hwf⟩
  · obtain rfl := illegal_next hi
    exact ⟨rfl, hinv, hwf⟩
  · obtain rfl := Host.Outcome.next.inj hw
    exact ⟨rfl, hinv, Memory.write_wf s.mem addr b hwf⟩
  · obtain rfl := Host.Outcome.next.inj hr
    have hreset : MsgContext.reset.Inv := by decide
    exact ⟨List.length_map _, hreset, hwf⟩

/-- Settles O52: the default kinds' reset timers and the reset context. -/
theorem resetMeetsInvariant : Obligations.ResetMeetsInvariant := by
  unfold Obligations.ResetMeetsInvariant
  decide

/-- Settles O53: a timer's part is one of the values written (`pwmWrite_inv`), the rest is
`step_keeps_rest`. -/
theorem stepKeepsInvariant : Obligations.StepKeepsInvariant := by
  unfold Obligations.StepKeepsInvariant
  rintro s s' ⟨hlow, hhigh, htimers, hmsg, hwf⟩ h
  obtain ⟨hlength, hmsg', hwf'⟩ := step_keeps_rest hmsg hwf h
  exact ⟨hlength ▸ hlow, hlength ▸ hhigh,
    step_forall_timers h reset_inv (fun _ _ _ _ _ _ _ => pwmWrite_inv) htimers, hmsg', hwf'⟩

/-! ### Named modes -/

/-- A register that a mode was written to, or that was named before, is named. -/
theorem waveName_getD {kind : TimerKind} {old : BitVec 4} (m : WaveMode)
    (h : (waveName kind old).isSome = true) :
    (waveName kind ((wavePattern kind m).getD old)).isSome = true := by
  cases hp : wavePattern kind m with
  | none => exact h
  | some p => rw [Option.getD_some, waveName_eq_some_iff.mpr hp]; rfl

theorem wgmWritten_named {i : Instr} {draw : Nat} {kind : TimerKind} {old : BitVec 4}
    (hcontract : i.honoursContract = true) (h : (waveName kind old).isSome = true) :
    (waveName kind ((wgmWritten i draw kind).getD old)).isSome = true := by
  cases i with
  | pwmHint8 t ch f cpu | pwmHint9 t ch f cpu | pwmHint10 t ch f cpu =>
    have hf : f ≠ 0 := of_decide_eq_true hcontract
    rw [wgmWritten, hintWgm, if_neg hf]
    exact waveName_getD _ h
  | pwmExact t ch f cpu =>
    have hf : f ≠ 0 := of_decide_eq_true hcontract
    rw [wgmWritten, exactWgm, if_neg hf]
    exact waveName_getD _ h
  | pwmClose t ch => exact waveName_getD _ h
  | _ => exact h

/-- `PWM.EXACT` selects an entry of the table (41 R93). -/
theorem exactChoice_cs_le (cpu f : BitVec 32) (kind : TimerKind) :
    (exactChoice cpu f (divisorTable kind)).cs ≤ tableSize kind := by
  have hk := select_lt (divisor cpu f .w8) kind
  simp only [exactChoice, tableSize] at hk ⊢
  split_ifs <;> simp only <;> omega

theorem ofNat_toNat_le {v n : Nat} (h : v ≤ n) : (BitVec.ofNat 3 v).toNat ≤ n :=
  (BitVec.toNat_ofNat v 3).symm ▸ (Nat.mod_le _ _).trans h

theorem csWritten_le {i : Instr} {draw : Nat} {kind : TimerKind} {old : BitVec 3}
    (hcontract : i.honoursContract = true) (h : old.toNat ≤ tableSize kind) :
    ((csWritten i draw kind).getD old).toNat ≤ tableSize kind := by
  cases i with
  | pwmHint8 t ch f cpu | pwmHint9 t ch f cpu | pwmHint10 t ch f cpu =>
    have hf : f ≠ 0 := of_decide_eq_true hcontract
    rw [csWritten, hintCs, if_neg hf]
    exact ofNat_toNat_le (select_lt _ kind)
  | pwmExact t ch f cpu =>
    have hf : f ≠ 0 := of_decide_eq_true hcontract
    rw [csWritten, exactCs, if_neg hf]
    exact ofNat_toNat_le (exactChoice_cs_le cpu f kind)
  | pwmClose t ch => exact Nat.zero_le _
  | _ => exact h

theorem pwmWrite_named {i : Instr} {draw : Nat} {tm : Timer} (hcontract : i.honoursContract = true)
    (h : tm.Named) : (pwmWrite i draw tm).Named := by
  obtain ⟨hcs, hwgm⟩ := h
  rw [Timer.Named, pwmWrite_kind, pwmWrite_cs, pwmWrite_wgm]
  exact ⟨csWritten_le hcontract hcs, wgmWritten_named hcontract hwgm⟩

theorem reset_named (kind : TimerKind) : (Timer.reset kind).Named := by
  cases kind <;> decide

/-- Settles O54: with a frequency that is not zero a command writes named modes and entries of the table
(`pwmWrite_named`), and every other event keeps or resets the timers. -/
theorem contractKeepsNamedModes : Obligations.ContractKeepsNamedModes := by
  unfold Obligations.ContractKeepsNamedModes
  intro s s' hnamed hcontract h
  refine step_forall_timers h reset_named (fun w rest i hin hdec draw tm => pwmWrite_named ?_) hnamed
  have hevent := hcontract (.command w) (by rw [hin]; rfl)
  simpa only [HostEvent.honoursContract, hdec] using hevent

end Sys2Proof.Machine
end

section
/-! Selection and the hint commands (spec/40_pwm_selection_hint.md R75 to R85). The scan is described by
the entry that stops it (`selectFrom_stop`), then by ranges of `D`; a hint command shows the mode and
prescaler selected in its registers. -/

namespace Sys2Proof.Machine

open Sys2Proof.Claims

/-! ### The claims' words are the model's -/

theorem divisor_eq_quotient (cpu f : BitVec 32) (w : CounterWidth) :
    divisor cpu f w = quotient cpu f w := by
  rw [divisor, quotient, Nat.shiftRight_eq_div_pow]

theorem divisorTable_eq_table (kind : TimerKind) : divisorTable kind = table kind := by
  cases kind <;> rfl

theorem tableSize_eq (kind : TimerKind) : tableSize kind = (table kind).length := by
  rw [tableSize, divisorTable_eq_table]

/-! ### The scan -/

/-- The scan passes an entry when neither it nor its double exceeds `D` (40 R76). -/
def Passes (d e : Nat) : Prop := e ≤ d ∧ 2 * e ≤ d

/-- The first entry that stops the scan gives its mode and index. -/
theorem selectFrom_stop {d k0 k e : Nat} {T : List Nat} (he : T[k]? = some e)
    (hpass : ∀ j e', j < k → T[j]? = some e' → Passes d e') (hstop : d < 2 * e) :
    selectFrom d k0 T = (if d < e then .fast else .pc, k0 + k) := by
  induction T generalizing k0 k with
  | nil => cases he
  | cons x rest ih =>
    cases k with
    | zero =>
      obtain rfl : x = e := Option.some.inj he
      by_cases hfast : d < x
      · simp [selectFrom, hfast]
      · simp [selectFrom, hfast, hstop]
    | succ k =>
      obtain ⟨h1, h2⟩ := hpass 0 x (Nat.succ_pos k) rfl
      have hrest := ih (k0 := k0 + 1) he fun j e' hj => hpass (j + 1) e' (Nat.succ_lt_succ hj)
      rw [selectFrom, if_neg (not_lt.mpr h1), if_neg (not_lt.mpr h2), hrest]
      congr 1
      omega

/-- A scan that nothing stops ends at the last index, phase-correct (40 R77). -/
theorem selectFrom_end {d k0 : Nat} {T : List Nat} (h : ∀ e ∈ T, Passes d e) :
    selectFrom d k0 T = (.pc, k0 + T.length - 1) := by
  induction T generalizing k0 with
  | nil => rfl
  | cons x rest ih =>
    obtain ⟨hx, hrest⟩ := List.forall_mem_cons.mp h
    rw [selectFrom, if_neg (not_lt.mpr hx.1), if_neg (not_lt.mpr hx.2), ih hrest, List.length_cons]
    congr 1
    omega

/-- Settles O16: the first entry that stops the scan, or its end. -/
theorem selectScansAsReplicated : Obligations.SelectScansAsReplicated := by
  unfold Obligations.SelectScansAsReplicated
  refine ⟨fun d T k e he hpass => ⟨fun hfast => ?_, fun hle hpc => ?_⟩, fun d T _ h => ?_⟩
  · rw [select, selectFrom_stop he hpass (by omega), if_pos hfast, Nat.zero_add]
  · rw [select, selectFrom_stop he hpass hpc, if_neg (not_lt.mpr hle), Nat.zero_add]
  · rw [select, selectFrom_end h, Nat.zero_add]

/-! ### Ranges of `D` -/

theorem select_table5 (d : Nat) : select d [1, 8, 64, 256, 1024] = ranges5 d := by
  simp only [select, selectFrom, ranges5, gt_iff_lt, Nat.reduceMul, Nat.reduceAdd, Nat.reduceSub,
    ite_self]

/-- On the 7-entry table an entry is also the double of the one before it, so some tests repeat. -/
theorem select_table7 (d : Nat) : select d [1, 8, 32, 64, 128, 256, 1024] = ranges7 d := by
  simp only [select, selectFrom, ranges7]
  by_cases h : d < 64 <;> grind

theorem scan_falls_off_iff (d : Nat) (kind : TimerKind) :
    (∀ e ∈ table kind, e ≤ d ∧ 2 * e ≤ d) ↔ 2048 ≤ d := by
  cases kind <;>
    simp only [table, List.forall_mem_cons, List.not_mem_nil, false_imp_iff, forall_true_iff, and_true] <;>
    omega

/-! ### The entry selected -/

/-- Entry `k` of the divisor table of a kind. -/
def entry (kind : TimerKind) (k : Nat) : Nat := (table kind).getD k 0

theorem entry_zero (kind : TimerKind) : entry kind 0 = 1 := by
  cases kind <;> rfl

theorem entry_last (kind : TimerKind) : entry kind ((table kind).length - 1) = 1024 := by
  cases kind <;> rfl

theorem table_length_pos (kind : TimerKind) : 0 < (table kind).length := by
  cases kind <;> decide

theorem table_length_le (kind : TimerKind) : (table kind).length ≤ 7 := by
  cases kind <;> decide

theorem getElem?_table {kind : TimerKind} {k : Nat} (hk : k < (table kind).length) :
    (table kind)[k]? = some (entry kind k) := by
  rw [entry, List.getD_eq_getElem?_getD, List.getElem?_eq_getElem hk, Option.getD_some]

/-- An entry is at least twice every earlier one. -/
theorem double_entry_le {kind : TimerKind} {i j : Nat} (hij : i < j) (hj : j < (table kind).length) :
    2 * entry kind i ≤ entry kind j := by
  have hall : ∀ j < (table kind).length, ∀ i < j, 2 * entry kind i ≤ entry kind j := by
    cases kind <;> decide
  exact hall j hj i hij

/-- An entry is at most eight times the one before. -/
theorem entry_succ_le {kind : TimerKind} {k : Nat} (hk : k + 1 < (table kind).length) :
    entry kind (k + 1) ≤ 8 * entry kind k := by
  have hall : ∀ k < (table kind).length - 1, entry kind (k + 1) ≤ 8 * entry kind k := by
    cases kind <;> decide
  exact hall k (by omega)

/-- Entry `k` is the first that stops the scan. -/
def StopsAt (d : Nat) (kind : TimerKind) (k : Nat) : Prop :=
  k < (table kind).length ∧ d < 2 * entry kind k ∧ ∀ j < k, 2 * entry kind j ≤ d

theorem exists_stopsAt {d : Nat} (kind : TimerKind) (hd : d < 2048) : ∃ k, StopsAt d kind k := by
  have hex : ∃ k, k < (table kind).length ∧ d < 2 * entry kind k := by
    have hpos := table_length_pos kind
    have hlast := entry_last kind
    exact ⟨(table kind).length - 1, by omega, by omega⟩
  obtain ⟨hk, hstop⟩ := Nat.find_spec hex
  refine ⟨Nat.find hex, hk, hstop, fun j hj => ?_⟩
  have hpass := Nat.find_min hex hj
  omega

theorem select_of_stopsAt {d k : Nat} {kind : TimerKind} (h : StopsAt d kind k) :
    select d (table kind) = (if d < entry kind k then .fast else .pc, k) := by
  obtain ⟨hk, hstop, hpass⟩ := h
  rw [select, selectFrom_stop (getElem?_table hk) (fun j e' hj he' => ?_) hstop, Nat.zero_add]
  obtain rfl : entry kind j = e' := Option.some.inj ((getElem?_table (by omega)).symm.trans he')
  have := hpass j hj
  exact ⟨by omega, this⟩

/-- The scan stops at an entry, or `D >= 2048` and it ends at the last index. -/
theorem select_cases {d k : Nat} {kind : TimerKind} {m : PwmMode}
    (h : select d (table kind) = (m, k)) :
    (StopsAt d kind k ∧ m = if d < entry kind k then .fast else .pc) ∨
      (2048 ≤ d ∧ m = .pc ∧ k + 1 = (table kind).length) := by
  by_cases hd : d < 2048
  · obtain ⟨k', hk'⟩ := exists_stopsAt kind hd
    rw [select_of_stopsAt hk', Prod.mk.injEq] at h
    obtain ⟨rfl, rfl⟩ := h
    exact .inl ⟨hk', rfl⟩
  · have hpos := table_length_pos kind
    rw [select, selectFrom_end ((scan_falls_off_iff d kind).mpr (not_lt.mp hd)), Prod.mk.injEq] at h
    exact .inr ⟨not_lt.mp hd, h.1.symm, by omega⟩

section Selected

variable {d k : Nat} {kind : TimerKind}

/-- Fast-PWM is selected at an entry above `D`; entry 0 only for `D = 0`. -/
theorem select_fast (h : select d (table kind) = (.fast, k)) :
    k < (table kind).length ∧ d < entry kind k ∧ (d ≠ 0 → entry kind k ≤ 4 * d) := by
  obtain ⟨⟨hk, hstop, hpass⟩, hm⟩ | ⟨-, hm, -⟩ := select_cases h
  · have hlt : d < entry kind k := by
      by_contra hge
      simp [hge] at hm
    refine ⟨hk, hlt, fun hd => ?_⟩
    cases k with
    | zero => rw [entry_zero] at hlt; omega
    | succ j =>
      have := hpass j (Nat.lt_succ_self j)
      have := entry_succ_le hk
      omega
  · cases hm

/-- Phase-correct is selected at an entry not above `D`. -/
theorem select_pc (h : select d (table kind) = (.pc, k)) :
    k < (table kind).length ∧ entry kind k ≤ d ∧
      (k + 1 < (table kind).length → d < 2 * entry kind k) := by
  obtain ⟨⟨hk, hstop, -⟩, hm⟩ | ⟨hd, -, hk⟩ := select_cases h
  · have hge : ¬ d < entry kind k := by
      intro hlt
      simp [hlt] at hm
    exact ⟨hk, not_lt.mp hge, fun _ => hstop⟩
  · have hlast := entry_last kind
    rw [← hk, Nat.add_sub_cancel] at hlast
    exact ⟨by omega, by omega, fun hlt => by omega⟩

end Selected

/-- On the 7-entry table entries 3, 4 and 5 are twice the one before, so their doubles stop the scan
first. -/
theorem not_fast_within {d k : Nat} (h : select d (table .t8_7) = (.fast, k)) : k ∉ [3, 4, 5] := by
  intro hk
  obtain ⟨-, hlt, -⟩ := select_fast h
  obtain ⟨⟨-, -, hpass⟩, -⟩ | ⟨-, hm, -⟩ := select_cases h
  · have hall : ∀ k ∈ [3, 4, 5], 0 < k ∧ entry .t8_7 k = 2 * entry .t8_7 (k - 1) := by decide
    obtain ⟨hpos, htwice⟩ := hall k hk
    have := hpass (k - 1) (by omega)
    omega
  · cases hm

/-- Settles O17: the scan of each table by ranges, and of the entries 1024 is the last to stop it. -/
theorem selectByRanges : Obligations.SelectByRanges := by
  unfold Obligations.SelectByRanges
  intro d
  exact ⟨select_table5 d, select_table5 d, select_table7 d, fun k => not_fast_within,
    scan_falls_off_iff d⟩

/-- The effective divisor of an entry in a mode: phase-correct counts up and down (40 R85). -/
def effectiveDivisor (kind : TimerKind) (m : PwmMode) (k : Nat) : Nat :=
  if m = .pc then 2 * entry kind k else entry kind k

/-- For `D < 2048` the effective divisor selected is the smallest table value or double above `D`. -/
theorem effectiveDivisor_least {d k : Nat} {kind : TimerKind} {m : PwmMode} (hd : d < 2048)
    (h : select d (table kind) = (m, k)) :
    d < effectiveDivisor kind m k ∧ ∀ x ∈ table kind,
      (d < x → effectiveDivisor kind m k ≤ x) ∧ (d < 2 * x → effectiveDivisor kind m k ≤ 2 * x) := by
  obtain ⟨⟨hk, hstop, hpass⟩, rfl⟩ | ⟨hge, -⟩ := select_cases h
  · have hvalue : effectiveDivisor kind (if d < entry kind k then .fast else .pc) k =
        if d < entry kind k then entry kind k else 2 * entry kind k := by
      by_cases hlt : d < entry kind k <;> simp [effectiveDivisor, hlt]
    rw [hvalue]
    refine ⟨by split <;> omega, fun x hx => ?_⟩
    obtain ⟨j, hj, hjx⟩ := List.mem_iff_getElem.mp hx
    obtain rfl : entry kind j = x := by rw [← hjx, entry, List.getD_eq_getElem _ _ hj]
    obtain hjk | rfl | hkj := lt_trichotomy j k
    · have := hpass j hjk
      omega
    · split <;> omega
    · have := double_entry_le hkj hj
      split <;> omega
  · omega

/-! ### What a hint command programs -/

theorem select_lt_length {d k : Nat} {kind : TimerKind} {m : PwmMode}
    (h : select d (table kind) = (m, k)) : k < (table kind).length := by
  obtain ⟨⟨hk, -⟩, -⟩ | ⟨-, -, hk⟩ := select_cases h <;> omega

section Programs

variable {w : CounterWidth} {tm : Timer} {m : PwmMode} {k : Nat}

theorem programHint_cs (hk : k < (table tm.kind).length) : (programHint tm m k w).cs.toNat = k + 1 := by
  have := table_length_le tm.kind
  simp only [programHint, Timer.writeWave_cs, Timer.writeCs_cs, BitVec.toNat_ofNat]
  omega

theorem programHint_wgm (hw : WidthFits w tm) :
    (programHint tm m k w).wgm = freePattern tm.kind m w := by
  have hfits : tm.kind = .t16 ∨ w = .w8 := (em (w = .w8)).symm.imp_left hw
  exact Timer.writeWave_wgm _ _ _ (wavePattern_free m hfits)

theorem programHint_name (hw : WidthFits w tm) :
    waveName tm.kind (programHint tm m k w).wgm = some (.free m w) := by
  have hfits : tm.kind = .t16 ∨ w = .w8 := (em (w = .w8)).symm.imp_left hw
  rw [programHint_wgm hw, waveName_eq_some_iff, wavePattern_free m hfits]

end Programs

theorem pwmWrite_hintCommand (w : CounterWidth) (t : Nat) (ch : Channel) (f cpu : BitVec 32) (draw : Nat)
    (tm : Timer) : pwmWrite (hintCommand w t ch f cpu) draw tm = hintWrite w f cpu draw tm := by
  cases w <;> rfl

theorem pwmDrawn_hintCommand (w : CounterWidth) (t : Nat) (ch : Channel) (f cpu : BitVec 32) :
    pwmDrawn (hintCommand w t ch f cpu) = frequencyDraws f := by
  cases w <;> rfl

section Hint

variable {w : CounterWidth} {s : State} {t : Nat} {ch : Channel} {f cpu : BitVec 32} {tm : Timer}
  {m : PwmMode} {k : Nat}

/-- The timer after a hint command with a non-zero frequency (40 R78). -/
theorem hint_timer (hb : BoundAt s t ch tm) (hf : f ≠ 0)
    (hsel : select (quotient cpu f w) (table tm.kind) = (m, k)) :
    (pwmNext (hintCommand w t ch f cpu) t tm s).timers[t]? = some (programHint tm m k w) := by
  rw [pwmNext_timer hb.1, pwmWrite_hintCommand, hintWrite, if_neg hf, divisor_eq_quotient,
    divisorTable_eq_table, hsel]

end Hint

/-- Settles O19: the timer is `programHint` of the selection (`hint_timer`), the rest is the frame. -/
theorem hintProgramsClockAndWave : Obligations.HintProgramsClockAndWave := by
  unfold Obligations.HintProgramsClockAndWave
  intro w s t ch f cpu tm m k hb hw hf hsel
  refine ⟨_, _, exec_hint f cpu hb hw, hint_timer hb hf hsel, programHint_cs (select_lt_length hsel),
    programHint_name hw, ?_, ?_, ?_, pwmNext_responds .., ?_, pwmNext_frame ..⟩
  · simp [programHint]
  · simp [programHint]
  · simp [programHint]
  · simp only [pwmNext, pwmDrawn_hintCommand, frequencyDraws, hf, if_false, Nat.add_zero]

/-- An 8-bit value written to the compare register of an 8-bit timer is kept whole. -/
theorem truncCompare_byte {kind : TimerKind} (hk : kind ≠ .t16) (v : BitVec 8) :
    truncCompare kind v.toNat = v.setWidth 16 := by
  have hwidth : compareWidth kind = 8 := by
    cases kind with
    | t16 => exact absurd rfl hk
    | t8_5 | t8_7 => rfl
  apply BitVec.eq_of_toNat_eq
  have := v.isLt
  simp only [truncCompare_toNat, hwidth, BitVec.toNat_setWidth]
  omega

/-- Settles O20: with frequency 0 the writers draw the registers the command writes. -/
theorem zeroFrequencyLeavesOpenValues : Obligations.ZeroFrequencyLeavesOpenValues := by
  unfold Obligations.ZeroFrequencyLeavesOpenValues
  refine ⟨fun w s t ch cpu tm hb hw => ?_, fun s t ch cpu tm hb hk => ?_⟩
  · refine ⟨_, Config.freeClockSelect s.pwmDraws, Config.freeWaveform s.pwmDraws, exec_hint 0 cpu hb hw,
      ?_, pwmNext_responds .., pwmNext_frame ..⟩
    rw [pwmNext_timer hb.1, pwmWrite_hintCommand]
    rfl
  · refine ⟨_, Config.freeClockSelect s.pwmDraws, Config.freeWaveform s.pwmDraws,
      Config.freeTop s.pwmDraws, exec_exact 0 cpu hb hk, ?_, pwmNext_responds .., pwmNext_frame ..⟩
    rw [pwmNext_timer hb.1, ← truncCompare_byte hk]
    rfl

theorem select_zero (kind : TimerKind) : select 0 (table kind) = (.fast, 0) := by
  cases kind <;> rfl

/-- Settles O21: the quotient is 0, which entry 0 stops, and that is programmed. -/
theorem aboveMaximumUsesPrescalerOne : Obligations.AboveMaximumUsesPrescalerOne := by
  unfold Obligations.AboveMaximumUsesPrescalerOne
  intro w s t ch f cpu tm hb hw hmax
  have hq : quotient cpu f w = 0 := Nat.div_eq_of_lt hmax
  have hf : f ≠ 0 := by
    rintro rfl
    exact absurd hmax (Nat.not_lt_zero _)
  have hsel : select (quotient cpu f w) (table tm.kind) = (.fast, 0) := hq ▸ select_zero tm.kind
  refine ⟨hq, select_zero tm.kind, _, _, exec_hint f cpu hb hw, hint_timer hb hf hsel, ?_, ?_,
    programHint_name hw, pwmNext_responds ..⟩
  · exact BitVec.eq_of_toNat_eq (programHint_cs (table_length_pos tm.kind))
  · rw [getElem?_table (table_length_pos tm.kind), entry_zero]

/-- The two modes of one width have different patterns. -/
theorem freePattern_eq_pc_iff (kind : TimerKind) (m : PwmMode) (w : CounterWidth) :
    freePattern kind m w = freePattern kind .pc w ↔ m = .pc := by
  cases kind <;> cases m <;> cases w <;> decide

/-- What the registers of a programmed timer show (40 R85). -/
theorem programHint_effective {w : CounterWidth} {tm : Timer} {m : PwmMode} {k : Nat}
    (hw : WidthFits w tm) (hk : k < (table tm.kind).length) :
    Effective (programHint tm m k w) (freePattern tm.kind .pc w) (effectiveDivisor tm.kind m k) := by
  have hcs := programHint_cs (w := w) (m := m) hk
  have hkind : (programHint tm m k w).kind = tm.kind := by simp [programHint]
  refine ⟨entry tm.kind k, by omega, ?_, ?_⟩
  · rw [hcs, hkind, Nat.add_sub_cancel, getElem?_table hk]
  · simp only [programHint_wgm hw, freePattern_eq_pc_iff, effectiveDivisor]

/-- Settles O22: the registers show the least value above the quotient (`effectiveDivisor_least`), and
`(cpu / 2^W) / f < E` is `cpu < E * 2^W * f`. -/
theorem hintFrequencyStrictlyBelow : Obligations.HintFrequencyStrictlyBelow := by
  unfold Obligations.HintFrequencyStrictlyBelow
  intro w s t ch f cpu tm hb hw hf hq
  rcases hsel : select (quotient cpu f w) (table tm.kind) with ⟨m, k⟩
  obtain ⟨habove, hleast⟩ := effectiveDivisor_least hq hsel
  refine ⟨_, _, _, exec_hint f cpu hb hw, hint_timer hb hf hsel,
    programHint_effective hw (select_lt_length hsel), ?_, hleast⟩
  have hpos : 0 < f.toNat := Nat.pos_of_ne_zero fun h0 => hf (BitVec.eq_of_toNat_eq h0)
  have hlt := (Nat.div_lt_iff_lt_mul hpos).mp habove
  have hlt := (Nat.div_lt_iff_lt_mul (by positivity)).mp hlt
  calc cpu.toNat < effectiveDivisor tm.kind m k * f.toNat * 2 ^ w.bits := hlt
    _ = effectiveDivisor tm.kind m k * 2 ^ w.bits * f.toNat := Nat.mul_right_comm _ _ _

end Sys2Proof.Machine
end

section
/-! `PWM.EXACT` (spec/41_pwm_exact.md R90 to R96). Each of the four cases is one value of `exactChoice`.
In the cases 1 to 3 the top is `cpu / (f * E)` for the effective divisor `E` that the choice shows, and
`E` lies between `D + 1` and `8 * D` (`choice_effective`), so the top fits its register. -/

namespace Sys2Proof.Machine

open Sys2Proof.Claims

/-! ### The four cases -/

section Cases

variable {cpu f : BitVec 32} {kind : TimerKind} {m : PwmMode} {k : Nat}

theorem exactChoice_one (hd : quotient cpu f .w8 = 0) :
    exactChoice cpu f (divisorTable kind) =
      { mode := .fast, cs := 1, top := exactTop cpu f (entry kind 0) } := by
  simp only [exactChoice, divisor_eq_quotient, divisorTable_eq_table, hd, if_true]
  rfl

variable (hd : quotient cpu f .w8 ≠ 0)

include hd

theorem exactChoice_two (hsel : select (quotient cpu f .w8) (table kind) = (.fast, k)) :
    exactChoice cpu f (divisorTable kind) =
      { mode := .pc, cs := k + 1, top := exactTop cpu f (2 * entry kind k) } := by
  simp only [exactChoice, divisor_eq_quotient, divisorTable_eq_table, hd, hsel, if_true, if_false]
  rfl

theorem exactChoice_three (hsel : select (quotient cpu f .w8) (table kind) = (.pc, k))
    (hk : k + 1 < (table kind).length) :
    exactChoice cpu f (divisorTable kind) =
      { mode := .fast, cs := k + 2, top := exactTop cpu f (entry kind (k + 1)) } := by
  simp only [exactChoice, divisor_eq_quotient, divisorTable_eq_table, hd, hsel, hk, if_true, if_false,
    reduceCtorEq]
  rfl

theorem exactChoice_four (hsel : select (quotient cpu f .w8) (table kind) = (.pc, k))
    (hk : k + 1 = (table kind).length) :
    exactChoice cpu f (divisorTable kind) =
      { mode := .pc, cs := (table kind).length, top := 255 } := by
  simp only [exactChoice, divisor_eq_quotient, divisorTable_eq_table, hd, hsel, hk, lt_irrefl, if_false,
    reduceCtorEq]

end Cases

/-- `PWM.EXACT` never stops the clock. -/
theorem exactChoice_cs_pos (cpu f : BitVec 32) (kind : TimerKind) :
    0 < (exactChoice cpu f (divisorTable kind)).cs := by
  have hpos := table_length_pos kind
  rw [← divisorTable_eq_table] at hpos
  simp only [exactChoice]
  split_ifs <;> simp only <;> omega

/-! ### The size of the top -/

section Top

variable {cpu f : BitVec 32} {e : Nat} (hf : f ≠ 0)

include hf

theorem frequency_pos : 0 < f.toNat :=
  Nat.pos_of_ne_zero fun h0 => hf (BitVec.eq_of_toNat_eq h0)

theorem quotient_lt_iff : quotient cpu f .w8 < e ↔ cpu.toNat < 256 * (f.toNat * e) := by
  rw [quotient, Nat.div_lt_iff_lt_mul (frequency_pos hf), Nat.div_lt_iff_lt_mul (by decide),
    Nat.mul_comm, Nat.mul_comm e]
  rfl

/-- A divisor above `D` gives a top of at most 255, and twice such a divisor one of at most 127. -/
theorem exactTop_le (h : quotient cpu f .w8 < e) :
    exactTop cpu f e ≤ 255 ∧ exactTop cpu f (2 * e) ≤ 127 := by
  have hcpu := (quotient_lt_iff hf).mp h
  have hpos : 0 < f.toNat * e := Nat.mul_pos (frequency_pos hf) (by omega)
  have htwice : f.toNat * (2 * e) = 2 * (f.toNat * e) := Nat.mul_left_comm ..
  have hone : exactTop cpu f e < 256 := (Nat.div_lt_iff_lt_mul hpos).mpr hcpu
  have htwo : exactTop cpu f (2 * e) < 128 := by
    rw [exactTop, htwice]
    exact (Nat.div_lt_iff_lt_mul (by omega)).mpr (by omega)
  omega

/-- A divisor of at most `8 * D` gives a top of at least 32, from a product below `2^32`. -/
theorem le_exactTop (hpos : 0 < e) (h : e ≤ 8 * quotient cpu f .w8) :
    32 ≤ exactTop cpu f e ∧ f.toNat * e < 2 ^ 32 := by
  have hq : ¬ quotient cpu f .w8 < quotient cpu f .w8 := lt_irrefl _
  rw [quotient_lt_iff hf, not_lt] at hq
  have hproduct : f.toNat * e ≤ f.toNat * (8 * quotient cpu f .w8) := Nat.mul_le_mul_left _ h
  have height : f.toNat * (8 * quotient cpu f .w8) = 8 * (f.toNat * quotient cpu f .w8) :=
    Nat.mul_left_comm ..
  have hcpu := cpu.isLt
  have hfe : 0 < f.toNat * e := Nat.mul_pos (frequency_pos hf) hpos
  exact ⟨(Nat.le_div_iff_mul_le hfe).mpr (by omega), by omega⟩

end Top

theorem entry_pos {kind : TimerKind} {k : Nat} (hk : k < (table kind).length) : 0 < entry kind k := by
  have hall : ∀ k < (table kind).length, 0 < entry kind k := by
    cases kind <;> decide
  exact hall k hk

section TopRange

variable {cpu f : BitVec 32} {kind : TimerKind} {k : Nat} (hf : f ≠ 0)

include hf

/-- Case 1: the whole range, and 0 exactly above the clock itself (41 R94). -/
theorem top_one (hd : quotient cpu f .w8 = 0) :
    exactTop cpu f (entry kind 0) ≤ 255 ∧
      (exactTop cpu f (entry kind 0) = 0 ↔ f.toNat > cpu.toNat) := by
  rw [entry_zero]
  refine ⟨(exactTop_le hf (by omega)).1, ?_⟩
  rw [exactTop, Nat.mul_one, Nat.div_eq_zero_iff_lt (frequency_pos hf)]

/-- Case 2: the entry that fast-PWM is selected at, doubled. -/
theorem top_two (hd : quotient cpu f .w8 ≠ 0)
    (hsel : select (quotient cpu f .w8) (table kind) = (.fast, k)) :
    32 ≤ exactTop cpu f (2 * entry kind k) ∧ exactTop cpu f (2 * entry kind k) ≤ 127 ∧
      f.toNat * (2 * entry kind k) < 2 ^ 32 := by
  obtain ⟨hk, habove, hnear⟩ := select_fast hsel
  have hpos := entry_pos hk
  have hnear := hnear hd
  obtain ⟨hlow, hproduct⟩ := le_exactTop hf (cpu := cpu) (e := 2 * entry kind k) (by omega) (by omega)
  exact ⟨hlow, (exactTop_le hf habove).2, hproduct⟩

/-- Case 3: the entry after the one that phase-correct is selected at. -/
theorem top_three (hsel : select (quotient cpu f .w8) (table kind) = (.pc, k))
    (hk : k + 1 < (table kind).length) :
    32 ≤ exactTop cpu f (entry kind (k + 1)) ∧ exactTop cpu f (entry kind (k + 1)) ≤ 255 ∧
      f.toNat * entry kind (k + 1) < 2 ^ 32 := by
  obtain ⟨-, hbelow, habove⟩ := select_pc hsel
  have habove := habove hk
  have hdouble := double_entry_le (Nat.lt_add_one k) hk
  have hnear := entry_succ_le hk
  obtain ⟨hlow, hproduct⟩ := le_exactTop hf (cpu := cpu) (entry_pos hk) (by omega)
  exact ⟨hlow, (exactTop_le hf (by omega)).1, hproduct⟩

/-- The top always fits the 8-bit register (41 R94). -/
theorem exactChoice_top_le : (exactChoice cpu f (divisorTable kind)).top ≤ 255 := by
  by_cases hd : quotient cpu f .w8 = 0
  · rw [exactChoice_one hd]
    exact (top_one hf hd).1
  · rcases hsel : select (quotient cpu f .w8) (table kind) with ⟨m, k⟩
    cases m with
    | fast =>
      rw [exactChoice_two hd hsel]
      obtain ⟨-, hle, -⟩ := top_two hf hd hsel
      exact hle.trans (by decide)
    | pc =>
      obtain hk | hk := Nat.lt_or_eq_of_le (select_lt_length hsel)
      · rw [exactChoice_three hd hsel hk]
        obtain ⟨-, hle, -⟩ := top_three hf hsel hk
        exact hle
      · rw [exactChoice_four hd hsel hk]

end TopRange

/-! ### What `PWM.EXACT` programs -/

section Programs

variable (tm : Timer) (c : ExactChoice)

@[simp] theorem programExact_kind : (programExact tm c).kind = tm.kind := by simp [programExact]

theorem programExact_chanA :
    (programExact tm c).chanA = { tm.chanA with ocr := truncCompare tm.kind c.top } := by
  have h : (programExact tm c).chan .A = { tm.chan .A with ocr := truncCompare tm.kind c.top } := by
    simp [programExact]
  exact h

theorem programExact_chanB : (programExact tm c).chanB = tm.chanB := by
  have h : (programExact tm c).chan .B = tm.chan .B := by
    simp [programExact, Timer.chan_writeCompare]
  exact h

end Programs

section ExactTimer

variable {s : State} {t : Nat} {ch : Channel} {f cpu : BitVec 32} {tm : Timer}

/-- The timer after `PWM.EXACT` with a non-zero frequency. -/
def exactTimer (tm : Timer) (f cpu : BitVec 32) : Timer :=
  programExact tm (exactChoice cpu f (divisorTable tm.kind))

theorem exact_timer (hb : BoundAt s t ch tm) (hf : f ≠ 0) :
    (pwmNext (.pwmExact t ch f cpu) t tm s).timers[t]? = some (exactTimer tm f cpu) := by
  rw [pwmNext_timer hb.1]
  simp only [pwmWrite, exactWrite, hf, if_false]
  rfl

variable (hk : tm.kind ≠ .t16)

theorem exactTimer_kind : (exactTimer tm f cpu).kind = tm.kind := programExact_kind ..

theorem exactTimer_cs :
    (exactTimer tm f cpu).cs.toNat = (exactChoice cpu f (divisorTable tm.kind)).cs := by
  have hle := exactChoice_cs_le cpu f tm.kind
  have hlen := table_length_le tm.kind
  rw [tableSize_eq] at hle
  simp only [exactTimer, programExact, Timer.writeCompare_cs, Timer.writeWave_cs, Timer.writeCs_cs,
    BitVec.toNat_ofNat]
  omega

include hk

theorem exactTimer_wgm : (exactTimer tm f cpu).wgm =
    if (exactChoice cpu f (divisorTable tm.kind)).mode = .pc then 0b0101 else 0b0111 := by
  obtain ⟨hpc, hfast⟩ := wavePattern_ocra hk
  rw [exactTimer, programExact, Timer.writeCompare_wgm, Timer.wgm_writeWave, Timer.writeCs_kind]
  cases (exactChoice cpu f (divisorTable tm.kind)).mode with
  | pc => rw [hpc]; rfl
  | fast => rw [hfast]; rfl

theorem exactTimer_ocr (hf : f ≠ 0) :
    (exactTimer tm f cpu).chanA.ocr.toNat = (exactChoice cpu f (divisorTable tm.kind)).top := by
  have htop : (exactChoice cpu f (divisorTable tm.kind)).top ≤ 255 := exactChoice_top_le hf
  have hwidth : compareWidth tm.kind = 8 := by
    cases hkind : tm.kind with
    | t16 => exact absurd hkind hk
    | t8_5 | t8_7 => rfl
  rw [exactTimer, programExact_chanA]
  simp only [truncCompare_toNat, hwidth]
  omega

end ExactTimer

/-! ### The statements -/

/-- Settles O23: the choice of each case, shown by the registers (`exactTimer_wgm`, `exactTimer_cs`,
`exactTimer_ocr`). -/
theorem exactFourCases : Obligations.ExactFourCases := by
  unfold Obligations.ExactFourCases
  intro s t ch f cpu tm m k hb hk hf hsel
  refine ⟨_, exactTimer tm f cpu, exec_exact f cpu hb hk, exact_timer hb hf, fun hd => ?_,
    fun hd hm => ?_, fun hd hm hlt => ?_, fun hd hm hlast => ?_, ?_, programExact_chanB ..,
    programExact_kind .., pwmNext_responds .., ?_, pwmNext_frame ..⟩
  · rw [exactTimer_wgm hk, exactTimer_cs, exactTimer_ocr hk hf, exactChoice_one hd]
    exact ⟨rfl, rfl, rfl⟩
  · subst hm
    rw [exactTimer_wgm hk, exactTimer_cs, exactTimer_ocr hk hf, exactChoice_two hd hsel]
    exact ⟨rfl, rfl, rfl⟩
  · subst hm
    rw [exactTimer_wgm hk, exactTimer_cs, exactTimer_ocr hk hf, exactChoice_three hd hsel hlt]
    exact ⟨rfl, rfl, rfl⟩
  · subst hm
    rw [exactTimer_wgm hk, exactTimer_cs, exactTimer_ocr hk hf, exactChoice_four hd hsel hlast]
    exact ⟨rfl, rfl, rfl⟩
  · rw [exactTimer, programExact_chanA]
  · simp only [pwmNext, pwmDrawn, frequencyDraws, hf, if_false, Nat.add_zero]

/-- Settles O24: the register holds the computed top (`exactTimer_ocr`), whose range the cases give
(`top_one`, `top_two`, `top_three`). -/
theorem exactTopRange : Obligations.ExactTopRange := by
  unfold Obligations.ExactTopRange
  intro s t ch f cpu tm m k hb hk hf hsel
  refine ⟨_, exactTimer tm f cpu, exec_exact f cpu hb hk, exact_timer hb hf, exactTimer_ocr hk hf,
    fun hd => ?_, fun hd hm => ?_, fun hd hm hlt => ?_, fun hd hm hlast => ?_⟩
  · rw [exactTimer_ocr hk hf, exactChoice_one hd]
    obtain ⟨hle, hzero⟩ := top_one (kind := tm.kind) hf hd
    exact ⟨hle, hzero, by rw [← entry, entry_zero, Nat.mul_one]⟩
  · subst hm
    rw [exactTimer_ocr hk hf, exactChoice_two hd hsel]
    exact top_two hf hd hsel
  · subst hm
    rw [exactTimer_ocr hk hf, exactChoice_three hd hsel hlt]
    exact top_three hf hsel hlt
  · subst hm
    rw [exactTimer_ocr hk hf, exactChoice_four hd hsel hlast]

/-- In the cases 1 to 3 the top is computed with the effective divisor that the choice shows. -/
theorem exactChoice_effective {f cpu : BitVec 32} {kind : TimerKind}
    (hq : quotient cpu f .w8 < 1024) :
    ∃ j, j < (table kind).length ∧ (exactChoice cpu f (divisorTable kind)).cs = j + 1 ∧
      (exactChoice cpu f (divisorTable kind)).top = exactTop cpu f
        (effectiveDivisor kind (exactChoice cpu f (divisorTable kind)).mode j) := by
  by_cases hd : quotient cpu f .w8 = 0
  · rw [exactChoice_one hd]
    exact ⟨0, table_length_pos kind, rfl, rfl⟩
  · rcases hsel : select (quotient cpu f .w8) (table kind) with ⟨m, k⟩
    have hk := select_lt_length hsel
    cases m with
    | fast =>
      rw [exactChoice_two hd hsel]
      exact ⟨k, hk, rfl, rfl⟩
    | pc =>
      obtain hlt | hlast := Nat.lt_or_eq_of_le hk
      · rw [exactChoice_three hd hsel hlt]
        exact ⟨k + 1, hlt, rfl, rfl⟩
      · obtain ⟨-, hbelow, -⟩ := select_pc hsel
        have hentry := entry_last kind
        rw [← hlast, Nat.succ_sub_one] at hentry
        omega

theorem effectiveDivisor_pos {kind : TimerKind} {m : PwmMode} {j : Nat}
    (hj : j < (table kind).length) : 0 < effectiveDivisor kind m j := by
  have := entry_pos hj
  cases m <;> simp only [effectiveDivisor, reduceCtorEq, if_true, if_false] <;> omega

theorem exactTimer_effective {f cpu : BitVec 32} {tm : Timer} {j : Nat} (hk : tm.kind ≠ .t16)
    (hcs : (exactChoice cpu f (divisorTable tm.kind)).cs = j + 1) (hj : j < (table tm.kind).length) :
    Effective (exactTimer tm f cpu) 0b0101
      (effectiveDivisor tm.kind (exactChoice cpu f (divisorTable tm.kind)).mode j) := by
  refine ⟨entry tm.kind j, ?_, ?_, ?_⟩
  · rw [exactTimer_cs, hcs]
    omega
  · rw [exactTimer_cs, exactTimer_kind, hcs, Nat.add_sub_cancel, getElem?_table hj]
  · rw [exactTimer_wgm hk]
    cases (exactChoice cpu f (divisorTable tm.kind)).mode <;> rfl

/-- A quotient times its divisor is within one divisor of the dividend. -/
theorem exactTop_fed_back {f cpu : BitVec 32} {e : Nat} (hf : f ≠ 0) (he : 0 < e) :
    e * exactTop cpu f e * f.toNat ≤ cpu.toNat ∧ cpu.toNat < e * (exactTop cpu f e + 1) * f.toNat := by
  have hpos : 0 < f.toNat * e := Nat.mul_pos (frequency_pos hf) he
  have hproduct : ∀ n, e * n * f.toNat = n * (f.toNat * e) := fun n => by ring
  rw [hproduct, hproduct]
  exact ⟨Nat.div_mul_le_self _ _, (Nat.div_lt_iff_lt_mul hpos).mp (Nat.lt_add_one _)⟩

/-- Settles O25: the registers show the divisor the top was computed with (`exactTimer_effective`), and
the top is the quotient by it (`exactTop_fed_back`). -/
theorem exactTopFedBack : Obligations.ExactTopFedBack := by
  unfold Obligations.ExactTopFedBack
  intro s t ch f cpu tm hb hk hf hq
  obtain ⟨j, hj, hcs, htop⟩ := exactChoice_effective (kind := tm.kind) hq
  refine ⟨_, exactTimer tm f cpu, _, exec_exact f cpu hb hk, exact_timer hb hf,
    exactTimer_effective hk hcs hj, ?_⟩
  rw [exactTimer_ocr hk hf, htop]
  exact exactTop_fed_back hf (effectiveDivisor_pos hj)

end Sys2Proof.Machine
end

section
/-! Duty, init and close (spec/42_pwm_duty.md, spec/43_pwm_lifecycle.md R105 to R110,
spec/41_pwm_exact.md R91). -/

namespace Sys2Proof.Machine

open Sys2Proof.Claims

theorem other_ne (ch : Channel) : other ch ≠ ch := by
  cases ch <;> decide

/-! ### One command -/

/-- Settles O26: a 16-bit timer is case I5. -/
theorem exactRefusedOnSixteenBit : Obligations.ExactRefusedOnSixteenBit := by
  unfold Obligations.ExactRefusedOnSixteenBit
  exact fun s t ch f cpu tm ht hk => exec_illegal (i := .pwmExact t ch f cpu) (.inr ⟨tm, ht, hk⟩)

/-- Settles O27: the timer is `writeCompare` of the value's low bits, everything else the frame. -/
theorem dutyWritesLowBits : Obligations.DutyWritesLowBits := by
  unfold Obligations.DutyWritesLowBits
  intro s t ch v tm hb
  refine ⟨_, tm.writeCompare ch v.toNat, exec_duty v hb, pwmNext_timer hb.1, ?_, ?_, ?_, by simp, by simp,
    by simp, pwmNext_responds .., rfl, pwmNext_frame ..⟩
  · rw [regs_eq_chan, Timer.writeCompare_chan, compareBits_eq, truncCompare_toNat]
  · simp
  · simp [Timer.chan_writeCompare, other_ne]

/-- Settles O28: the timer is `initChannel`, everything else the frame. -/
theorem initBindsChannel : Obligations.InitBindsChannel := by
  unfold Obligations.InitBindsChannel
  intro s t ch tm ht
  refine ⟨_, tm.initChannel ch, exec_init ch ht, pwmNext_timer ht, ?_, ?_, by simp, by simp, by simp,
    pwmNext_responds .., rfl, pwmNext_frame ..⟩
  · simp [Timer.chan_initChannel]
  · simp [Timer.chan_initChannel, other_ne]

/-- Settles O30: the timer is `closeChannel`, everything else the frame. -/
theorem closeStopsTimer : Obligations.CloseStopsTimer := by
  unfold Obligations.CloseStopsTimer
  intro s t ch tm hb
  refine ⟨_, tm.closeChannel ch, exec_close hb, pwmNext_timer hb.1, by simp, by simp, ?_, ?_, by simp,
    pwmNext_responds .., rfl, pwmNext_frame ..⟩
  · simp [Timer.chan_closeChannel]
  · simp [Timer.chan_closeChannel, other_ne]

/-! ### The same command again -/

theorem Timer.initChannel_idem (tm : Timer) (ch : Channel) :
    (tm.initChannel ch).initChannel ch = tm.initChannel ch := by
  cases ch <;> rfl

theorem Timer.closeChannel_idem (tm : Timer) (ch : Channel) :
    (tm.closeChannel ch).closeChannel ch = tm.closeChannel ch := by
  obtain ⟨kind, cs, wgm, chanA, chanB⟩ := tm
  cases kind <;> cases ch <;> rfl

/-- A command without draws that writes what stands there already changes nothing the second time. -/
theorem pwmNext_again {i : Instr} {t : Nat} {tm : Timer} {s : State} (hdrawn : pwmDrawn i = 0)
    (hidem : ∀ d d', pwmWrite i d (pwmWrite i d' tm) = pwmWrite i d' tm) :
    pwmNext i t (pwmWrite i s.pwmDraws tm) (pwmNext i t tm s) = pwmNext i t tm s := by
  simp only [pwmNext, hidem, hdrawn, List.set_set, Nat.add_zero]

section Again

variable {s : State} {t : Nat} {ch : Channel} {tm : Timer}

theorem boundAt_init (ht : s.timers[t]? = some tm) :
    BoundAt (pwmNext (.pwmInit t ch) t tm s) t ch (tm.initChannel ch) :=
  ⟨pwmNext_timer ht, by simp [Timer.chan_initChannel]⟩

theorem boundAt_close (hb : BoundAt s t ch tm) :
    BoundAt (pwmNext (.pwmClose t ch) t tm s) t ch (tm.closeChannel ch) := by
  have hbound := (boundAt_iff.mp hb).2
  exact ⟨pwmNext_timer hb.1, by simp [Timer.chan_closeChannel, hbound]⟩

theorem exec_init_again (ht : s.timers[t]? = some tm) :
    exec (.pwmInit t ch) (pwmNext (.pwmInit t ch) t tm s) = .next (pwmNext (.pwmInit t ch) t tm s) := by
  rw [exec_init ch (pwmNext_timer ht)]
  exact congrArg _ (pwmNext_again rfl fun _ _ => Timer.initChannel_idem tm ch)

theorem exec_close_again (hb : BoundAt s t ch tm) :
    exec (.pwmClose t ch) (pwmNext (.pwmClose t ch) t tm s) =
      .next (pwmNext (.pwmClose t ch) t tm s) := by
  rw [exec_close (boundAt_close hb)]
  exact congrArg _ (pwmNext_again rfl fun _ _ => Timer.closeChannel_idem tm ch)

end Again

/-- Settles O29: `initChannel` is idempotent, binds for the close, and after it sets `COM` alone. -/
theorem initAgainIsHarmless : Obligations.InitAgainIsHarmless := by
  unfold Obligations.InitAgainIsHarmless
  intro s t ch hlt
  have ht := List.getElem?_eq_getElem hlt
  have hclosed := boundAt_close (boundAt_init (ch := ch) ht)
  exact ⟨_, exec_init ch ht, pwmNext_responds .., exec_init_again ht, _, _, _,
    exec_close (boundAt_init ht), exec_init ch hclosed.1, pwmNext_responds .., pwmNext_timer hclosed.1,
    by simp [pwmWrite, Timer.chan_initChannel], by simp [pwmWrite], by simp [pwmWrite]⟩

/-- Settles O31: an illegal close is illegal again, and a legal one leaves the pair bound and
`closeChannel` idempotent. -/
theorem closeTwiceIsOnce : Obligations.CloseTwiceIsOnce := by
  unfold Obligations.CloseTwiceIsOnce
  intro s s1 t ch h
  by_cases hi : IllegalCommand s (.pwmClose t ch)
  · obtain rfl := Host.Outcome.next.inj ((exec_illegal hi).symm.trans h)
    exact exec_illegal hi
  · obtain ⟨tm, hb⟩ := not_unusable_iff.mp hi
    obtain rfl := Host.Outcome.next.inj ((exec_close hb).symm.trans h)
    exact exec_close_again hb

/-! ### After a close -/

theorem closeChannel_sameWiring (tm : Timer) (ch : Channel) : SameWiring (tm.closeChannel ch) tm := by
  refine sameWiring_iff.mpr ⟨tm.closeChannel_kind ch, fun c => ?_⟩
  by_cases hc : c = ch <;> simp [Timer.chan_closeChannel, hc]

/-- A close keeps kinds and bindings, so every command is as legal as before. -/
theorem close_legality {s : State} {t : Nat} {ch : Channel} {tm : Timer} (hb : BoundAt s t ch tm)
    (i : Instr) : IllegalCommand (pwmNext (.pwmClose t ch) t tm s) i ↔ IllegalCommand s i := by
  have hwiring : ∀ u : Nat,
      Option.Rel SameWiring (pwmNext (.pwmClose t ch) t tm s).timers[u]? s.timers[u]? := by
    intro u
    by_cases hu : u = t
    · subst hu
      rw [pwmNext_timer hb.1, hb.1]
      exact .some (closeChannel_sameWiring tm ch)
    · rw [(pwmNext_frame (.pwmClose t ch) t tm s).1 u hu]
      exact optionRel_sameWiring_refl _
  cases hp : isPwm i with
  | true =>
    obtain ⟨u, c, hpair⟩ := exists_pair_of_isPwm hp
    exact illegalCommand_congr hpair (hwiring u)
  | false =>
    cases i with
    | msgInit ptr len | msgStep => exact Iff.rfl
    | _ => cases hp

section Restart

variable {s : State} {t : Nat} {ch : Channel} {tm : Timer} {f cpu : BitVec 32} {draw : Nat}

/-- A legal hint command is one for a bound pair of a timer that has its width. -/
theorem boundAt_of_legal_hint {w : CounterWidth} (h : ¬ IllegalCommand s (hintCommand w t ch f cpu)) :
    ∃ tm, BoundAt s t ch tm ∧ WidthFits w tm := by
  cases w with
  | w8 =>
    obtain ⟨tm, hb⟩ := not_unusable_iff.mp h
    exact ⟨tm, hb, fun hne => absurd rfl hne⟩
  | w9 | w10 =>
    obtain ⟨tm, hb, hk⟩ := exists_bound16 h
    exact ⟨tm, hb, fun _ => hk⟩

theorem freePattern_ne_zero (kind : TimerKind) (m : PwmMode) (w : CounterWidth) :
    freePattern kind m w ≠ 0b0000 := by
  cases kind <;> cases m <;> cases w <;> decide

variable (hf : f ≠ 0)

include hf

theorem hint_starts {w : CounterWidth} (hw : WidthFits w tm) :
    (pwmWrite (hintCommand w t ch f cpu) draw tm).cs ≠ 0 ∧
      (pwmWrite (hintCommand w t ch f cpu) draw tm).wgm ≠ 0b0000 := by
  rcases hsel : select (quotient cpu f w) (table tm.kind) with ⟨m, k⟩
  rw [pwmWrite_hintCommand, hintWrite, if_neg hf, divisor_eq_quotient, divisorTable_eq_table, hsel]
  have hcs := programHint_cs (w := w) (m := m) (select_lt_length hsel)
  refine ⟨fun h0 => ?_, programHint_wgm (m := m) (k := k) hw ▸ freePattern_ne_zero tm.kind m w⟩
  rw [h0] at hcs
  exact absurd hcs (Nat.succ_ne_zero k).symm

theorem exact_starts (hk : tm.kind ≠ .t16) :
    (pwmWrite (.pwmExact t ch f cpu) draw tm).cs ≠ 0 ∧
      (pwmWrite (.pwmExact t ch f cpu) draw tm).wgm ≠ 0b0000 := by
  have hwrite : pwmWrite (.pwmExact t ch f cpu) draw tm = exactTimer tm f cpu := by
    rw [pwmWrite, exactWrite, if_neg hf, exactTimer]
  rw [hwrite]
  refine ⟨fun h0 => ?_, ?_⟩
  · have hcs := exactTimer_cs (tm := tm) (f := f) (cpu := cpu)
    rw [h0] at hcs
    exact absurd hcs.symm (exactChoice_cs_pos cpu f tm.kind).ne'
  · rw [exactTimer_wgm hk]
    split <;> decide

/-- A legal frequency command starts the timer it names (43 R109). -/
theorem frequency_starts {i : Instr} (hi : i ∈ frequencyCommands t ch f cpu)
    (h : ¬ IllegalCommand s i) (ht : s.timers[t]? = some tm) :
    (pwmWrite i draw tm).cs ≠ 0 ∧ (pwmWrite i draw tm).wgm ≠ 0b0000 := by
  have hint : ∀ w, ¬ IllegalCommand s (hintCommand w t ch f cpu) →
      (pwmWrite (hintCommand w t ch f cpu) draw tm).cs ≠ 0 ∧
        (pwmWrite (hintCommand w t ch f cpu) draw tm).wgm ≠ 0b0000 := by
    intro w hlegal
    obtain ⟨tm', hb, hw⟩ := boundAt_of_legal_hint hlegal
    obtain rfl : tm' = tm := Option.some.inj (hb.1.symm.trans ht)
    exact hint_starts hf hw
  simp only [frequencyCommands, List.mem_cons, List.not_mem_nil, or_false] at hi
  obtain rfl | rfl | rfl | rfl := hi
  · exact hint .w8 h
  · exact hint .w9 h
  · exact hint .w10 h
  · obtain ⟨tm', hb, hk⟩ := exists_bound8 h
    obtain rfl : tm' = tm := Option.some.inj (hb.1.symm.trans ht)
    exact exact_starts hf hk

end Restart

/-- A frequency command names its pair and leaves `COM`. -/
theorem frequency_pair {t : Nat} {ch : Channel} {f cpu : BitVec 32} {i : Instr}
    (hi : i ∈ frequencyCommands t ch f cpu) : pairOf i = some (t, ch) ∧ comWritten i ch = none := by
  simp only [frequencyCommands, List.mem_cons, List.not_mem_nil, or_false] at hi
  obtain rfl | rfl | rfl | rfl := hi <;> exact ⟨rfl, rfl⟩

/-- Settles O32: legality depends on the wiring, which a close keeps (`close_legality`); a legal
frequency command programs clock and mode (`frequency_starts`) and writes no `COM`. -/
theorem closeKeepsBinding : Obligations.CloseKeepsBinding := by
  unfold Obligations.CloseKeepsBinding
  intro s s1 t ch tm hb h
  obtain rfl := Host.Outcome.next.inj ((exec_close hb).symm.trans h)
  refine ⟨close_legality hb, fun f cpu i hf hi hlegal => ?_⟩
  obtain ⟨hpair, hcom⟩ := frequency_pair hi
  have htc := (boundAt_close hb).1
  obtain ⟨tm1, ht1, he⟩ := exec_pwm_legal hpair hlegal
  obtain rfl := Option.some.inj (ht1.symm.trans htc)
  obtain ⟨hcs, hwgm⟩ := frequency_starts hf hi hlegal ht1 (draw := s.pwmDraws)
  have ht2 := pwmNext_timer (i := i) ht1
  refine ⟨_, _, he, ht2, hcs, hwgm, ?_, _, _, exec_init ch ht2, pwmNext_timer ht2, ?_⟩
  · rw [regs_eq_chan, pwmWrite_chan, hcom]
    simp [Timer.chan_closeChannel]
  · simp [pwmWrite, Timer.chan_initChannel]

end Sys2Proof.Machine
end
